-- ==== Sys2Proof/Word.lean ====
section
/-! DEFINITION. Word.lean: the widths of the machine, as 00_scope.md R7 and R11 give them. -/

namespace Sys2Proof

/-- A memory byte, a general register or a timer: 8 bits (R7). -/
abbrev Byte := BitVec 8

/-- An instruction word, the index register, the program counter or a stack slot: 16 bits (R7). -/
abbrev Word := BitVec 16

/-- The index of a general register, 0 to 15 (R7, R22). It is a name, not a number to compute with. -/
abbrev Reg := Fin 16

/-- The flag register VF is register 0xF (10_state.md R25). -/
abbrev Reg.vf : Reg := 15

end Sys2Proof
end

