-- ==== Sys2Proof/Config.lean ====
section
/-! DEFINITION. Config.lean: the fixed parameters (00_scope.md R7), the configuration of this hardware (R8, R10)
and the open parameters (R9), which have no body: nothing can evaluate them. -/

namespace Sys2Proof.Config

/-- `MEM_SIZE` (R7). -/
abbrev memSize : Nat := 4096

/-- `ROM_BASE` (R7): where the program is loaded and where PC starts. -/
abbrev romBase : Nat := 0x200

/-- `MAX_ROM` (R7): 3584 bytes. -/
abbrev maxRom : Nat := memSize - romBase

/-- `STACK_DEPTH` (R7). -/
abbrev stackDepth : Nat := 16

/-- `DISPLAY_W` on this hardware (R8). -/
abbrev displayW : Nat := 64

/-- `DISPLAY_H` on this hardware (R8). -/
abbrev displayH : Nat := 32

/-- `DRAW_SETS_VF` (R10): false is this hardware; true selects the collision flag of 42_display.md R153. -/
def drawSetsVf : Bool := false

/-- `RND_AND` (R10): false is this hardware; true selects the AND of 40_alu.md R112. -/
def rndAnd : Bool := false

/-- `FONT_BASE` (R9), an OPEN parameter. Its type is the spec's one constraint, `FONT_BASE + 80 <= 0x200`. -/
opaque fontBase : Fin 433

/-- `FONT_GLYPHS` (R9), an OPEN parameter: the 80 font bytes, glyph d at bytes 5d to 5d + 4. -/
opaque fontGlyphs : Fin 80 → Byte

/-- The random byte of CXNN (R13 `draw_rand`), a FREE VALUE: the n-th draw, under no law. -/
opaque randomByte : Nat → Byte

end Sys2Proof.Config
end

