-- ==== Sys2Proof/Syntax.lean ====
section
/-! DEFINITION. Syntax.lean: one constructor per row of spec/opcode_table.json (30_encoding.md R79, R83).
Register fields X and Y are register names, N is a count of rows (0 to 15), NN a byte, NNN a 12-bit address (R74). -/

namespace Sys2Proof

inductive Instr where
  /-- 00E0 CLS (R151) -/
  | cls
  /-- 00EE RET (R132) -/
  | ret
  /-- 1NNN JP (R133) -/
  | jp (nnn : BitVec 12)
  /-- 2NNN CALL (R131) -/
  | call (nnn : BitVec 12)
  /-- 3XNN SE_IMM (R134) -/
  | seImm (x : Reg) (nn : Byte)
  /-- 4XNN SNE_IMM (R135) -/
  | sneImm (x : Reg) (nn : Byte)
  /-- 5XY. SE_REG (R136); the low nibble is no operand (R77) -/
  | seReg (x y : Reg)
  /-- 6XNN LD_IMM (R101) -/
  | ldImm (x : Reg) (nn : Byte)
  /-- 7XNN ADD_IMM (R102) -/
  | addImm (x : Reg) (nn : Byte)
  /-- 8XY0 LD_REG (R103) -/
  | ldReg (x y : Reg)
  /-- 8XY1 OR (R104) -/
  | or (x y : Reg)
  /-- 8XY2 AND (R105) -/
  | and (x y : Reg)
  /-- 8XY3 XOR (R106) -/
  | xor (x y : Reg)
  /-- 8XY4 ADD_REG (R107) -/
  | addReg (x y : Reg)
  /-- 8XY5 SUB (R108) -/
  | sub (x y : Reg)
  /-- 8XY6 SHR (R109) -/
  | shr (x y : Reg)
  /-- 8XY7 SUBN (R110) -/
  | subn (x y : Reg)
  /-- 8XYE SHL (R111) -/
  | shl (x y : Reg)
  /-- 9XY. SNE_REG (R137); the low nibble is no operand (R77) -/
  | sneReg (x y : Reg)
  /-- ANNN LD_I (R171) -/
  | ldI (nnn : BitVec 12)
  /-- BNNN JP_V0 (R138) -/
  | jpV0 (nnn : BitVec 12)
  /-- CXNN RND (R112) -/
  | rnd (x : Reg) (nn : Byte)
  /-- DXYN DRW (R152) -/
  | drw (x y : Reg) (n : Fin 16)
  /-- EX9E SKP (R180) -/
  | skp (x : Reg)
  /-- EXA1 SKNP (R181) -/
  | sknp (x : Reg)
  /-- FX07 LD_VX_DT (R177) -/
  | ldVxDt (x : Reg)
  /-- FX0A LD_VX_K (R182) -/
  | ldVxK (x : Reg)
  /-- FX15 LD_DT_VX (R178) -/
  | ldDtVx (x : Reg)
  /-- FX18 LD_ST_VX (R179) -/
  | ldStVx (x : Reg)
  /-- FX1E ADD_I_VX (R172) -/
  | addIVx (x : Reg)
  /-- FX29 LD_F_VX (R173) -/
  | ldFVx (x : Reg)
  /-- FX33 LD_B_VX (R174) -/
  | ldBVx (x : Reg)
  /-- FX55 LD_MEM_VX (R175) -/
  | ldMemVx (x : Reg)
  /-- FX65 LD_VX_MEM (R176) -/
  | ldVxMem (x : Reg)
  /-- every other word, a no-op (R80, R81) -/
  | unknown (w : Word)
deriving DecidableEq, Repr

end Sys2Proof
end

