-- ==== Sys2Proof/WellFormed.lean ====
section
/-! DEFINITION. WellFormed.lean: which terms of Instr are instructions of this hardware. Every operand's bound is in its
type, so one check is left: the word that `unknown` carries is one of the unknown words that 30_encoding.md R80 lists. -/

namespace Sys2Proof

/-- The unknown words, exactly as R80 lists them: four families, each with the words it leaves out. -/
def isUnknownWord (w : Word) : Bool :=
  match w.toNat / 0x1000 with
  | 0x0 => w.toNat != 0x00E0 && w.toNat != 0x00EE
  | 0x8 => [0x8, 0x9, 0xA, 0xB, 0xC, 0xD, 0xF].contains (w.toNat % 0x10)
  | 0xE => !([0x9E, 0xA1].contains (w.toNat % 0x100))
  | 0xF => !([0x07, 0x0A, 0x15, 0x18, 0x1E, 0x29, 0x33, 0x55, 0x65].contains (w.toNat % 0x100))
  | _ => false

/-- An instruction is well formed unless it is `unknown` of a word that the opcode map gives a meaning (R79, R80). -/
def Instr.wf : Instr → Bool
  | .unknown w => isUnknownWord w
  | .cls | .ret => true
  | .jp _ | .call _ | .ldI _ | .jpV0 _ => true
  | .seImm _ _ | .sneImm _ _ | .ldImm _ _ | .addImm _ _ | .rnd _ _ => true
  | .seReg _ _ | .sneReg _ _ | .ldReg _ _ | .or _ _ | .and _ _ | .xor _ _ => true
  | .addReg _ _ | .sub _ _ | .shr _ _ | .subn _ _ | .shl _ _ => true
  | .drw _ _ _ => true
  | .skp _ | .sknp _ | .ldVxDt _ | .ldVxK _ | .ldDtVx _ | .ldStVx _ => true
  | .addIVx _ | .ldFVx _ | .ldBVx _ | .ldMemVx _ | .ldVxMem _ => true

end Sys2Proof
end

