-- ==== Sys2Proof/Decode.lean ====
section
/-! DEFINITION. Decode.lean: the fields of a word (30_encoding.md R73), the two-level dispatch (R76 to R80), the decoder
over bytes in fetch order (R52, R71), and the encoder, written from the layouts of R75. -/

namespace Sys2Proof

/-! ## The fields of R73 -/

/-- `F`, `w[15:12]`: the opcode family. -/
def fieldF (w : Word) : BitVec 4 := w.extractLsb' 12 4
/-- `X`, `w[11:8]`, as the register it names. -/
def fieldX (w : Word) : Reg := (w.extractLsb' 8 4).toFin
/-- `Y`, `w[7:4]`, as the register it names. -/
def fieldY (w : Word) : Reg := (w.extractLsb' 4 4).toFin
/-- `N`, `w[3:0]`. -/
def fieldN (w : Word) : BitVec 4 := w.extractLsb' 0 4
/-- `NN`, `w[7:0]`. -/
def fieldNN (w : Word) : Byte := w.extractLsb' 0 8
/-- `NNN`, `w[11:0]`. -/
def fieldNNN (w : Word) : BitVec 12 := w.extractLsb' 0 12

/-! ## Dispatch -/

/-- Family 0 matches the whole word (R78). -/
def decode0 (w : Word) : Instr :=
  if w = 0x00E0 then .cls else if w = 0x00EE then .ret else .unknown w

/-- Family 8 matches `N` (R79). -/
def decode8 (w : Word) : Instr :=
  match fieldN w with
  | 0x0 => .ldReg (fieldX w) (fieldY w)
  | 0x1 => .or (fieldX w) (fieldY w)
  | 0x2 => .and (fieldX w) (fieldY w)
  | 0x3 => .xor (fieldX w) (fieldY w)
  | 0x4 => .addReg (fieldX w) (fieldY w)
  | 0x5 => .sub (fieldX w) (fieldY w)
  | 0x6 => .shr (fieldX w) (fieldY w)
  | 0x7 => .subn (fieldX w) (fieldY w)
  | 0xE => .shl (fieldX w) (fieldY w)
  | _ => .unknown w

/-- Family E matches `NN` (R79). -/
def decodeE (w : Word) : Instr :=
  match fieldNN w with
  | 0x9E => .skp (fieldX w)
  | 0xA1 => .sknp (fieldX w)
  | _ => .unknown w

/-- Family F matches `NN` (R79). -/
def decodeF (w : Word) : Instr :=
  match fieldNN w with
  | 0x07 => .ldVxDt (fieldX w)
  | 0x0A => .ldVxK (fieldX w)
  | 0x15 => .ldDtVx (fieldX w)
  | 0x18 => .ldStVx (fieldX w)
  | 0x1E => .addIVx (fieldX w)
  | 0x29 => .ldFVx (fieldX w)
  | 0x33 => .ldBVx (fieldX w)
  | 0x55 => .ldMemVx (fieldX w)
  | 0x65 => .ldVxMem (fieldX w)
  | _ => .unknown w

/-- Decode, total on words (R79 to R81): the first level selects on `F`; families 5 and 9 do not look at `N` (R77). -/
def decode (w : Word) : Instr :=
  match fieldF w with
  | 0x0 => decode0 w
  | 0x1 => .jp (fieldNNN w)
  | 0x2 => .call (fieldNNN w)
  | 0x3 => .seImm (fieldX w) (fieldNN w)
  | 0x4 => .sneImm (fieldX w) (fieldNN w)
  | 0x5 => .seReg (fieldX w) (fieldY w)
  | 0x6 => .ldImm (fieldX w) (fieldNN w)
  | 0x7 => .addImm (fieldX w) (fieldNN w)
  | 0x8 => decode8 w
  | 0x9 => .sneReg (fieldX w) (fieldY w)
  | 0xA => .ldI (fieldNNN w)
  | 0xB => .jpV0 (fieldNNN w)
  | 0xC => .rnd (fieldX w) (fieldNN w)
  | 0xD => .drw (fieldX w) (fieldY w) (fieldN w).toFin
  | 0xE => decodeE w
  | _ => decodeF w

/-! ## Bytes -/

/-- The word of two bytes in fetch order: the byte at the lower address is bits 15..8 (20_memory.md R52). -/
def wordOfBytes (hi lo : Byte) : Word := hi ++ lo

/-- The byte of a word at the lower address (R52). -/
def highByte (w : Word) : Byte := w.extractLsb' 8 8
/-- The byte of a word at the higher address (R52). -/
def lowByte (w : Word) : Byte := w.extractLsb' 0 8

/-- Why bytes are no instruction. No word is refused (R81), so a missing byte is the only reason. -/
inductive DecodeError where
  /-- fewer than the two bytes every instruction has (R70) -/
  | truncated
deriving DecidableEq, Repr

/-- Decode bytes in address order: the instruction and the bytes after it (R70, R71). -/
def decodeBytes : List Byte → Except DecodeError (Instr × List Byte)
  | hi :: lo :: rest => .ok (decode (wordOfBytes hi lo), rest)
  | [_] => .error .truncated
  | [] => .error .truncated

/-! ## The encoder, from the layouts of R75 -/

/-- `A12`: `f N N N`. -/
def encA12 (f : BitVec 4) (nnn : BitVec 12) : Word := f ++ nnn
/-- `RI8` and `RS8`: `f X N N`. -/
def encRI8 (f : BitVec 4) (x : Reg) (nn : Byte) : Word := f ++ (BitVec.ofFin x : BitVec 4) ++ nn
/-- `RR`, `RRS` and `RRN`: `f X Y n`. -/
def encRRN (f : BitVec 4) (x y : Reg) (n : BitVec 4) : Word :=
  f ++ (BitVec.ofFin x : BitVec 4) ++ (BitVec.ofFin y : BitVec 4) ++ n

/-- The word of an instruction. SE_REG and SNE_REG are written with N = 0 (R83). -/
def encode : Instr → Word
  | .cls => 0x00E0#16
  | .ret => 0x00EE#16
  | .jp nnn => encA12 0x1#4 nnn
  | .call nnn => encA12 0x2#4 nnn
  | .seImm x nn => encRI8 0x3#4 x nn
  | .sneImm x nn => encRI8 0x4#4 x nn
  | .seReg x y => encRRN 0x5#4 x y 0x0#4
  | .ldImm x nn => encRI8 0x6#4 x nn
  | .addImm x nn => encRI8 0x7#4 x nn
  | .ldReg x y => encRRN 0x8#4 x y 0x0#4
  | .or x y => encRRN 0x8#4 x y 0x1#4
  | .and x y => encRRN 0x8#4 x y 0x2#4
  | .xor x y => encRRN 0x8#4 x y 0x3#4
  | .addReg x y => encRRN 0x8#4 x y 0x4#4
  | .sub x y => encRRN 0x8#4 x y 0x5#4
  | .shr x y => encRRN 0x8#4 x y 0x6#4
  | .subn x y => encRRN 0x8#4 x y 0x7#4
  | .shl x y => encRRN 0x8#4 x y 0xE#4
  | .sneReg x y => encRRN 0x9#4 x y 0x0#4
  | .ldI nnn => encA12 0xA#4 nnn
  | .jpV0 nnn => encA12 0xB#4 nnn
  | .rnd x nn => encRI8 0xC#4 x nn
  | .drw x y n => encRRN 0xD#4 x y (BitVec.ofFin n)
  | .skp x => encRI8 0xE#4 x 0x9E#8
  | .sknp x => encRI8 0xE#4 x 0xA1#8
  | .ldVxDt x => encRI8 0xF#4 x 0x07#8
  | .ldVxK x => encRI8 0xF#4 x 0x0A#8
  | .ldDtVx x => encRI8 0xF#4 x 0x15#8
  | .ldStVx x => encRI8 0xF#4 x 0x18#8
  | .addIVx x => encRI8 0xF#4 x 0x1E#8
  | .ldFVx x => encRI8 0xF#4 x 0x29#8
  | .ldBVx x => encRI8 0xF#4 x 0x33#8
  | .ldMemVx x => encRI8 0xF#4 x 0x55#8
  | .ldVxMem x => encRI8 0xF#4 x 0x65#8
  | .unknown w => w

/-- The bytes of an instruction in address order (R52). -/
def encodeBytes (i : Instr) : List Byte := [highByte (encode i), lowByte (encode i)]

/-! ## The opcode table -/

/-- The row of spec/opcode_table.json that an instruction belongs to: its `match` and its `mask`. A word is in a row when
`word & mask = match`; the row of `unknown` (mask 0) is the fallback, after every other row. -/
def Instr.row : Instr → Word × Word
  | .cls => (0x00E0, 0xFFFF)
  | .ret => (0x00EE, 0xFFFF)
  | .jp _ => (0x1000, 0xF000)
  | .call _ => (0x2000, 0xF000)
  | .seImm _ _ => (0x3000, 0xF000)
  | .sneImm _ _ => (0x4000, 0xF000)
  | .seReg _ _ => (0x5000, 0xF000)
  | .ldImm _ _ => (0x6000, 0xF000)
  | .addImm _ _ => (0x7000, 0xF000)
  | .ldReg _ _ => (0x8000, 0xF00F)
  | .or _ _ => (0x8001, 0xF00F)
  | .and _ _ => (0x8002, 0xF00F)
  | .xor _ _ => (0x8003, 0xF00F)
  | .addReg _ _ => (0x8004, 0xF00F)
  | .sub _ _ => (0x8005, 0xF00F)
  | .shr _ _ => (0x8006, 0xF00F)
  | .subn _ _ => (0x8007, 0xF00F)
  | .shl _ _ => (0x800E, 0xF00F)
  | .sneReg _ _ => (0x9000, 0xF000)
  | .ldI _ => (0xA000, 0xF000)
  | .jpV0 _ => (0xB000, 0xF000)
  | .rnd _ _ => (0xC000, 0xF000)
  | .drw _ _ _ => (0xD000, 0xF000)
  | .skp _ => (0xE09E, 0xF0FF)
  | .sknp _ => (0xE0A1, 0xF0FF)
  | .ldVxDt _ => (0xF007, 0xF0FF)
  | .ldVxK _ => (0xF00A, 0xF0FF)
  | .ldDtVx _ => (0xF015, 0xF0FF)
  | .ldStVx _ => (0xF018, 0xF0FF)
  | .addIVx _ => (0xF01E, 0xF0FF)
  | .ldFVx _ => (0xF029, 0xF0FF)
  | .ldBVx _ => (0xF033, 0xF0FF)
  | .ldMemVx _ => (0xF055, 0xF0FF)
  | .ldVxMem _ => (0xF065, 0xF0FF)
  | .unknown _ => (0x0000, 0x0000)

/-- Whether a word is in a row. -/
def inRow (w : Word) (row : Word × Word) : Bool := w &&& row.2 == row.1

/-! ## The table's words -/

/-- A table word as the hardware stores it: the low `nbits` bits of `w` (at most one word, R70), high byte first. -/
def tableBytes (nbits w : Nat) : List Byte :=
  let word : Word := BitVec.ofNat 16 (w % 2 ^ nbits)
  [highByte word, lowByte word]

/-- The instruction the decoder reads from the word `w` of a table row of `nbits` bits. -/
def decodeTableWord (nbits w : Nat) : Option Instr :=
  match decodeBytes (tableBytes nbits w) with
  | .ok (i, _) => some i
  | .error _ => none

end Sys2Proof
end

