-- ==== Sys2Proof/Machine/State.lean ====
section
/-! DEFINITION. Machine/State.lean: the state of 10_state.md R20 as plain data, the fault record, the reasons a step can
stop, and the state after reset (R37). -/

namespace Sys2Proof.Machine

/-- A fault record `{ kind, pc, addr }` (60_exceptions.md R200): one constructor a kind; `pc` is the address of the
instruction being fetched or executed; `addr`, the lowest out-of-range byte address, is there for AddressOutOfRange only. -/
inductive FaultRecord where
  | addressOutOfRange (pc : Word) (addr : Nat)
  | stackOverflow (pc : Word)
  | stackUnderflow (pc : Word)
deriving DecidableEq, Repr

/-- Why a step stops. -/
inductive Fault where
  /-- A fault of R200, raised by fetch (R71), DRW, LD_B_VX, LD_MEM_VX, LD_VX_MEM (R55), CALL (R131) or RET (R132); the
  host is handed the record and the block then holds it in FAULT (R201). Safe: the spec's own stop. -/
  | raised (r : FaultRecord)
  /-- Answered by `step` alone, in a state whose FAULT latch holds `r`: "a faulted block has no step" (R82, R201).
  Safe: the spec gives no transition. -/
  | notEnabled (r : FaultRecord)
deriving DecidableEq, Repr

/-- Why an instruction would have no meaning. -/
inductive Refusal where
  /-- An arm of `exec` that has no meaning yet. Safe: the model stops. No arm of this model answers it. -/
  | notModelled (mnemonic : String)
deriving DecidableEq, Repr

/-- Memory `M[0..4095]` (R33, R50): the bytes that differ from the reset contents, addresses strictly rising
(`Memory.wf` in Ops.lean). -/
abbrev Memory := List Host.Cell

/-- The display bitmap `D` (R36): `D(x, y)` is column `x` of row `y`; true is lit. -/
abbrev Display := Vector (Vector Bool Config.displayW) Config.displayH

/-- The state of the block (R20). -/
structure State where
  /-- `M` -/
  mem : Memory
  /-- `V[0..15]`; VF is `V[15]` -/
  v : Vector Byte 16
  /-- `I` -/
  i : Word
  /-- `PC` -/
  pc : Word
  /-- `S[0..15]` -/
  stack : Vector Word Config.stackDepth
  /-- `SP`, the next free slot, 0 to 16 -/
  sp : Fin (Config.stackDepth + 1)
  /-- `DT` -/
  dt : Byte
  /-- `ST` -/
  st : Byte
  /-- `D` -/
  display : Display
  /-- `KEY` -/
  key : Option (Fin 16)
  /-- `FAULT` -/
  fault : Option FaultRecord
  /-- THE MODEL'S OWN, no component of R20: how many random bytes have been drawn (log 2) -/
  draws : Nat
deriving DecidableEq, Repr

/-- The state that `reset` produces (R37, 70_reset_and_hazards.md R230). Memory lists nothing: an unlisted address reads
as its reset contents, the font included (`initialByte` in Ops.lean). -/
def State.reset : State where
  mem := []
  v := Vector.replicate 16 0
  i := 0
  pc := 0x200
  stack := Vector.replicate Config.stackDepth 0
  sp := 0
  dt := 0
  st := 0
  display := Vector.replicate Config.displayH (Vector.replicate Config.displayW false)
  key := none
  fault := none
  draws := 0

/-- The block as the host drives it: its state, and what has happened since the last reset, which the enabling condition of
`load_program` needs (R233; 93_implementation_defined.md, row "`load_program` after steps, or twice") and for which R20 gives
the state no component (log 8). -/
structure Session where
  st : State
  /-- a step has run since the last reset -/
  stepped : Bool
  /-- a ROM has been loaded since the last reset -/
  loaded : Bool
deriving DecidableEq, Repr

end Sys2Proof.Machine
end

