-- ==== Sys2Proof/Machine/Ops.lean ====
section
/-! DEFINITION. Machine/Ops.lean: the named operations over memory, registers, the stack and the display, fetch, and
raising a fault. -/

namespace Sys2Proof.Machine

/-- The answer of a meaning or a step. -/
abbrev Step := Host.Outcome State Fault Refusal

/-! ## Reset contents of memory -/

/-- `FONT_BASE` (00_scope.md R9). -/
def fontBase : Nat := Config.fontBase.val

/-- The byte of the font at offset `j` (R9): glyph d is offsets 5d to 5d + 4; offsets from 80 on are no font byte. -/
def fontByte (j : Nat) : Byte := if h : j < 80 then Config.fontGlyphs ⟨j, h⟩ else 0

/-- What an address holds after reset (10_state.md R37): the font at FONT_BASE, 0 everywhere else. It is also what an
address that `mem` does not list reads as. (The font lies below 0x200, R9; that test comes first so that program
addresses evaluate although FONT_BASE is open.) -/
def initialByte (a : Nat) : Byte :=
  if Config.romBase ≤ a then 0
  else if fontBase ≤ a then fontByte (a - fontBase)
  else 0

/-! ## Memory -/

/-- The byte at an address (R50). -/
def Memory.read : Memory → Nat → Byte
  | [], a => initialByte a
  | (b, v) :: m, a => if a = b then v else Memory.read m a

/-- Put a cell in its place by address. -/
def Memory.insert (a : Nat) (v : Byte) : Memory → Memory
  | [] => [(a, v)]
  | (b, w) :: m =>
    if a < b then (a, v) :: (b, w) :: m
    else if a = b then (a, v) :: m
    else (b, w) :: Memory.insert a v m

/-- Unlist an address. -/
def Memory.erase (a : Nat) (m : Memory) : Memory := m.filter fun c => c.1 != a

/-- Write one byte, keeping the canonical form: a byte equal to the address's reset contents is not listed. -/
def Memory.write (m : Memory) (a : Nat) (v : Byte) : Memory :=
  if v = initialByte a then Memory.erase a m else Memory.insert a v m

/-- Consecutive byte writes in increasing address order (R53). -/
def Memory.storeBytes (m : Memory) (a : Nat) : List Byte → Memory
  | [] => m
  | b :: bs => Memory.storeBytes (Memory.write m a b) (a + 1) bs

/-- The canonical form: addresses strictly rising and below 4096 (R50), no entry equal to the reset contents. -/
abbrev Memory.wf (m : Memory) : Prop :=
  (m.map Prod.fst).Pairwise (· < ·) ∧ ∀ c ∈ m, c.1 < Config.memSize ∧ c.2 ≠ initialByte c.1

/-- `M[a]` (00_scope.md R12). -/
def State.byte (s : State) (a : Nat) : Byte := Memory.read s.mem a

/-- `MemWrite` of consecutive bytes from `a` on; the range is checked before (`guardBlock`). -/
def State.storeBytes (s : State) (a : Nat) (bs : List Byte) : State :=
  { s with mem := Memory.storeBytes s.mem a bs }

/-! ## Registers -/

/-- `V[x]`. -/
def State.reg (s : State) (x : Reg) : Byte := s.v[x.val]
/-- `V[x] <- b`. -/
def State.setReg (s : State) (x : Reg) (b : Byte) : State := { s with v := s.v.set x.val b }
/-- `I <- w`. -/
def State.setI (s : State) (w : Word) : State := { s with i := w }
/-- `PC <- w`. -/
def State.setPc (s : State) (w : Word) : State := { s with pc := w }
/-- `DT <- b`. -/
def State.setDt (s : State) (b : Byte) : State := { s with dt := b }
/-- `ST <- b`. -/
def State.setSt (s : State) (b : Byte) : State := { s with st := b }
/-- `KEY <- k` (60_exceptions.md R213); no instruction calls it. -/
def State.setKey (s : State) (k : Option (Fin 16)) : State := { s with key := k }
/-- Write the whole bitmap. -/
def State.setDisplay (s : State) (d : Display) : State := { s with display := d }

/-- `PC <- PC + 2`: what a successful fetch does (30_encoding.md R72), and what `skip` does (R13). -/
def State.advance (s : State) : State := s.setPc (s.pc + 2)

/-- `pc_cur`, the address of the current instruction, as execute sees it: `PC - 2` (00_scope.md R14). -/
def State.pcCur (s : State) : Word := s.pc - 2

/-- Skip the next word if `c` holds (R13 `skip`, 41_control_flow.md R130). -/
def State.skipIf (s : State) (c : Bool) : State := if c then s.advance else s

/-- `V[k] <- M[I + k]` for k in 0..x, the other registers kept (43_index_timer_input.md R176). -/
def State.loadRegs (s : State) (x : Reg) : State :=
  { s with v := Vector.ofFn fun k => if k ≤ x then s.byte (s.i.toNat + k.val) else s.reg k }

/-! ## The free draw of CXNN (R13 `draw_rand`) -/

/-- The random byte the next draw answers: a free value. -/
def State.randByte (s : State) : Byte := Config.randomByte s.draws
/-- One draw is used up. -/
def State.takeDraw (s : State) : State := { s with draws := s.draws + 1 }

/-! ## Stack (10_state.md R32) -/

/-- `S[SP] <- w; SP <- SP + 1`; none when the stack is full. -/
def State.push (s : State) (w : Word) : Option State :=
  if h : s.sp.val < Config.stackDepth then
    some { s with stack := s.stack.set s.sp.val w, sp := ⟨s.sp.val + 1, by omega⟩ }
  else none

/-- `SP <- SP - 1`, and `S[SP]`, which keeps its value; none when the stack is empty. -/
def State.pop (s : State) : Option (Word × State) :=
  if h : 0 < s.sp.val then
    some (s.stack[s.sp.val - 1], { s with sp := ⟨s.sp.val - 1, by omega⟩ })
  else none

/-! ## Display (10_state.md R36, 42_display.md) -/

/-- `D(x, y)`; a place outside the bitmap is no cell and reads as dark. -/
def Display.cell (d : Display) (x y : Nat) : Bool :=
  if h : x < Config.displayW ∧ y < Config.displayH then d[y][x] else false

/-- `D(x, y) <- D(x, y) ^ b` if the place is inside the display; else the bit is dropped (R152). -/
def Display.xorCell (d : Display) (x y : Nat) (b : Bool) : Display :=
  if h : x < Config.displayW ∧ y < Config.displayH then d.set y (d[y].set x (d[y][x] ^^ b)) else d

/-- Every cell 0 (R151). -/
def Display.clear : Display := Vector.replicate Config.displayH (Vector.replicate Config.displayW false)

/-- The first `n` columns of one sprite row, at (x0, py), most-significant bit first (R152). -/
def Display.drawRow (row : Byte) (x0 py : Nat) : Nat → Display → Display
  | 0, d => d
  | c + 1, d => (Display.drawRow row x0 py c d).xorCell (x0 + c) py (row.getLsbD (7 - c))

/-- The first `n` rows of a sprite whose row r is `rows r`, at (x0, y0) (R152). -/
def Display.drawRows (rows : Nat → Byte) (x0 y0 : Nat) : Nat → Display → Display
  | 0, d => d
  | r + 1, d => Display.drawRow (rows r) x0 (y0 + r) 8 (Display.drawRows rows x0 y0 r d)

/-- Whether drawing the sprite on `d` turns a lit cell dark (R153): used only when DRAW_SETS_VF is on. -/
def Display.collides (d : Display) (rows : Nat → Byte) (x0 y0 n : Nat) : Bool :=
  (List.range n).any fun r => (List.range 8).any fun c =>
    d.cell (x0 + c) (y0 + r) && (rows r).getLsbD (7 - c)

/-! ## Faults (60_exceptions.md R200, R201) -/

/-- `raise F(info)` (R13): the operation ends with the fault; its record is the result of the step (R204). -/
def raise (r : FaultRecord) : Step := .fault (.raised r)

/-- What a raised fault leaves: the state from before the step with the record in FAULT (R201). -/
def State.latchFault (s : State) (r : FaultRecord) : State := { s with fault := some r }

/-- The code of a fault's kind (R200). -/
def FaultRecord.code : FaultRecord → Nat
  | .addressOutOfRange _ _ => 1
  | .stackOverflow _ => 2
  | .stackUnderflow _ => 3

/-- The `pc` of a fault record (R200). -/
def FaultRecord.pc : FaultRecord → Word
  | .addressOutOfRange pc _ => pc
  | .stackOverflow pc => pc
  | .stackUnderflow pc => pc

/-- The `addr` of a fault record, present for AddressOutOfRange only (R200). -/
def FaultRecord.addr : FaultRecord → Option Nat
  | .addressOutOfRange _ a => some a
  | .stackOverflow _ => none
  | .stackUnderflow _ => none

/-- Every byte `I .. I + n - 1` is inside memory (20_memory.md R55); no byte at all is. -/
abbrev State.BlockInRange (s : State) (n : Nat) : Prop := n = 0 ∨ s.i.toNat + (n - 1) < Config.memSize

/-- The range check of an access to `n` bytes from I on, made before anything is written (R55): it raises at the lowest
out-of-range address, `max(I, 4096)`. -/
def guardBlock (n : Nat) (s : State) (go : Step) : Step :=
  if s.BlockInRange n then go
  else raise (.addressOutOfRange s.pcCur (max s.i.toNat Config.memSize))

/-! ## Fetch (30_encoding.md R71) -/

/-- The instruction word at PC, or the fault at the lowest out-of-range byte address. -/
def fetch (s : State) : Except FaultRecord Word :=
  if Config.memSize ≤ s.pc.toNat then .error (.addressOutOfRange s.pc s.pc.toNat)
  else if Config.memSize ≤ s.pc.toNat + 1 then .error (.addressOutOfRange s.pc (s.pc.toNat + 1))
  else .ok (wordOfBytes (s.byte s.pc.toNat) (s.byte (s.pc.toNat + 1)))

end Sys2Proof.Machine
end

