-- ==== Sys2Proof/Machine/Flags.lean ====
section
/-! DEFINITION. Machine/Flags.lean: every flag VF takes (10_state.md R25), and the write of a result with its flag. -/

namespace Sys2Proof.Machine

/-- A flag value is 0 or 1 (R25). -/
def flagByte (b : Bool) : Byte := if b then 1 else 0

/-- Carry of 8XY4: the exact sum passes 255 (40_alu.md R107). -/
def carry (a b : Byte) : Bool := 255 < a.toNat + b.toNat
/-- NOT borrow of `a - b`: a >= b (R108, R110). -/
def noBorrow (a b : Byte) : Bool := b.toNat ≤ a.toNat
/-- The bit 8XY6 shifts out: bit 0 (R109). -/
def shiftOutRight (v : Byte) : Bool := v.getLsbD 0
/-- The bit 8XYE shifts out: bit 7 (R111). -/
def shiftOutLeft (v : Byte) : Bool := v.getLsbD 7

/-- The result to V[X] first, the flag to VF second (R100): with X = 0xF, VF ends holding the flag. -/
def State.setRegFlag (s : State) (x : Reg) (result : Byte) (flag : Bool) : State :=
  (s.setReg x result).setReg Reg.vf (flagByte flag)

end Sys2Proof.Machine
end

