-- ==== Sys2Proof/Machine/Operands.lean ====
section
/-! DEFINITION. Machine/Operands.lean: every operand form of 30_encoding.md R74 and of the instruction rules that is more
than a register or an immediate as it stands. -/

namespace Sys2Proof.Machine

/-- `zext_16(NNN)` (R74). -/
def zext16 (nnn : BitVec 12) : Word := nnn.setWidth 16

/-- `zext_16(NNN) + V[0]`, in 16 bits, not masked (41_control_flow.md R138). -/
def jumpV0Target (nnn : BitVec 12) (s : State) : Word := zext16 nnn + (s.reg 0).setWidth 16

/-- `(I + V[X]) mod 65536` (43_index_timer_input.md R172). -/
def indexPlus (x : Reg) (s : State) : Word := s.i + (s.reg x).setWidth 16

/-- `FONT_BASE + 5 * (V[X] & 0x0F)` (R173). -/
def glyphAddress (x : Reg) (s : State) : Word :=
  BitVec.ofNat 16 (fontBase + 5 * (s.reg x &&& 0x0F).toNat)

/-- The hundreds, tens and ones of a byte, in that order (R174). -/
def bcdDigits (b : Byte) : List Byte :=
  [BitVec.ofNat 8 (b.toNat / 100), BitVec.ofNat 8 (b.toNat / 10 % 10), BitVec.ofNat 8 (b.toNat % 10)]

/-- V[0] to V[x], in that order (R175). -/
def regsUpTo (x : Reg) (s : State) : List Byte := s.v.toList.take (x.val + 1)

/-- `KEY != none and KEY = V[X]`, all 8 bits of VX compared (R180). -/
def keyIs (x : Reg) (s : State) : Bool :=
  match s.key with
  | none => false
  | some k => k.val == (s.reg x).toNat

/-- The sprite's origin column, `V[X] mod DISPLAY_W` (42_display.md R152). -/
def spriteX (x : Reg) (s : State) : Nat := (s.reg x).toNat % Config.displayW
/-- The sprite's origin row, `V[Y] mod DISPLAY_H` (R152). -/
def spriteY (y : Reg) (s : State) : Nat := (s.reg y).toNat % Config.displayH
/-- Sprite row r, the byte at `I + r` (R152). -/
def spriteRow (s : State) (r : Nat) : Byte := s.byte (s.i.toNat + r)

/-- CXNN's combination of the draw and NN (40_alu.md R112): AND under the switch RND_AND, OR on this hardware. -/
def rndCombine (useAnd : Bool) (r nn : Byte) : Byte := if useAnd then r &&& nn else r ||| nn

end Sys2Proof.Machine
end

