-- ==== Sys2Proof/Machine/Alu.lean ====
section
/-! DEFINITION. Machine/Alu.lean: the ALU family (40_alu.md). Every meaning runs after fetch, so PC is already past the
instruction, and no meaning here touches it (R100). -/

namespace Sys2Proof.Machine

/-- 6XNN (R101). -/
def execLdImm (x : Reg) (nn : Byte) (s : State) : Step := .next (s.setReg x nn)

/-- 7XNN (R102): modulo 256, no flag. -/
def execAddImm (x : Reg) (nn : Byte) (s : State) : Step := .next (s.setReg x (s.reg x + nn))

/-- 8XY0 (R103). -/
def execLdReg (x y : Reg) (s : State) : Step := .next (s.setReg x (s.reg y))

/-- 8XY1 (R104): VF unchanged. -/
def execOr (x y : Reg) (s : State) : Step := .next (s.setReg x (s.reg x ||| s.reg y))

/-- 8XY2 (R105): VF unchanged. -/
def execAnd (x y : Reg) (s : State) : Step := .next (s.setReg x (s.reg x &&& s.reg y))

/-- 8XY3 (R106): VF unchanged. -/
def execXor (x y : Reg) (s : State) : Step := .next (s.setReg x (s.reg x ^^^ s.reg y))

/-- 8XY4 (R107). -/
def execAddReg (x y : Reg) (s : State) : Step :=
  .next (s.setRegFlag x (s.reg x + s.reg y) (carry (s.reg x) (s.reg y)))

/-- 8XY5 (R108). -/
def execSub (x y : Reg) (s : State) : Step :=
  .next (s.setRegFlag x (s.reg x - s.reg y) (noBorrow (s.reg x) (s.reg y)))

/-- 8XY6 (R109): the source is VY. -/
def execShr (x y : Reg) (s : State) : Step :=
  .next (s.setRegFlag x (s.reg y >>> 1) (shiftOutRight (s.reg y)))

/-- 8XY7 (R110). -/
def execSubn (x y : Reg) (s : State) : Step :=
  .next (s.setRegFlag x (s.reg y - s.reg x) (noBorrow (s.reg y) (s.reg x)))

/-- 8XYE (R111): the source is VY. -/
def execShl (x y : Reg) (s : State) : Step :=
  .next (s.setRegFlag x (s.reg y <<< 1) (shiftOutLeft (s.reg y)))

/-- CXNN (R112): one free draw, combined with NN. -/
def execRnd (x : Reg) (nn : Byte) (s : State) : Step :=
  .next (s.takeDraw.setReg x (rndCombine Config.rndAnd s.randByte nn))

end Sys2Proof.Machine
end

