-- ==== Sys2Proof/Machine/Control.lean ====
section
/-! DEFINITION. Machine/Control.lean: jumps, call, return and skips (41_control_flow.md), and the unknown word. -/

namespace Sys2Proof.Machine

/-- 00EE (R132). -/
def execRet (s : State) : Step :=
  match s.pop with
  | some (target, s') => .next (s'.setPc target)
  | none => raise (.stackUnderflow s.pcCur)

/-- 1NNN (R133). -/
def execJp (nnn : BitVec 12) (s : State) : Step := .next (s.setPc (zext16 nnn))

/-- 2NNN (R131): pushes PC as fetch left it, the address after the call. -/
def execCall (nnn : BitVec 12) (s : State) : Step :=
  match s.push s.pc with
  | some s' => .next (s'.setPc (zext16 nnn))
  | none => raise (.stackOverflow s.pcCur)

/-- 3XNN (R134). -/
def execSeImm (x : Reg) (nn : Byte) (s : State) : Step := .next (s.skipIf (s.reg x == nn))

/-- 4XNN (R135). -/
def execSneImm (x : Reg) (nn : Byte) (s : State) : Step := .next (s.skipIf (s.reg x != nn))

/-- 5XYN (R136). -/
def execSeReg (x y : Reg) (s : State) : Step := .next (s.skipIf (s.reg x == s.reg y))

/-- 9XYN (R137). -/
def execSneReg (x y : Reg) (s : State) : Step := .next (s.skipIf (s.reg x != s.reg y))

/-- BNNN (R138). -/
def execJpV0 (nnn : BitVec 12) (s : State) : Step := .next (s.setPc (jumpV0Target nnn s))

/-- Every unknown word (30_encoding.md R80): nothing but the PC that fetch advanced. -/
def execUnknown (_w : Word) (s : State) : Step := .next s

end Sys2Proof.Machine
end

