-- ==== Sys2Proof/Machine/DisplayUnit.lean ====
section
/-! DEFINITION. Machine/DisplayUnit.lean: CLS and DRW (42_display.md). -/

namespace Sys2Proof.Machine

/-- 00E0 (R151). -/
def execCls (s : State) : Step := .next (s.setDisplay Display.clear)

/-- The sprite of DRW XORed onto the bitmap (R152). -/
def drawnDisplay (x y : Reg) (n : Fin 16) (s : State) : Display :=
  Display.drawRows (spriteRow s) (spriteX x s) (spriteY y s) n.val s.display

/-- The collision unit's signal (R153), from the bitmap before the draw. -/
def spriteCollides (x y : Reg) (n : Fin 16) (s : State) : Bool :=
  s.display.collides (spriteRow s) (spriteX x s) (spriteY y s) n.val

/-- DRW's effect once its range check has passed. With the switch on, VF is written last (R153). -/
def drawSprite (setsVf : Bool) (x y : Reg) (n : Fin 16) (s : State) : State :=
  let drawn := s.setDisplay (drawnDisplay x y n s)
  if setsVf then drawn.setReg Reg.vf (flagByte (spriteCollides x y n s)) else drawn

/-- DXYN (R152): the check covers all N bytes and comes before any cell changes. -/
def execDrw (x y : Reg) (n : Fin 16) (s : State) : Step :=
  guardBlock n.val s (.next (drawSprite Config.drawSetsVf x y n s))

end Sys2Proof.Machine
end

