-- ==== Sys2Proof/Machine/IndexTimerKey.lean ====
section
/-! DEFINITION. Machine/IndexTimerKey.lean: the index register, memory block, BCD, timer and key instructions
(43_index_timer_input.md). -/

namespace Sys2Proof.Machine

/-- ANNN (R171). -/
def execLdI (nnn : BitVec 12) (s : State) : Step := .next (s.setI (zext16 nnn))

/-- FX1E (R172): VF unchanged. -/
def execAddIVx (x : Reg) (s : State) : Step := .next (s.setI (indexPlus x s))

/-- FX29 (R173). -/
def execLdFVx (x : Reg) (s : State) : Step := .next (s.setI (glyphAddress x s))

/-- FX33 (R174). -/
def execLdBVx (x : Reg) (s : State) : Step :=
  guardBlock 3 s (.next (s.storeBytes s.i.toNat (bcdDigits (s.reg x))))

/-- FX55 (R175): X + 1 bytes, I unchanged. -/
def execLdMemVx (x : Reg) (s : State) : Step :=
  guardBlock (x.val + 1) s (.next (s.storeBytes s.i.toNat (regsUpTo x s)))

/-- FX65 (R176): X + 1 bytes, I unchanged. -/
def execLdVxMem (x : Reg) (s : State) : Step :=
  guardBlock (x.val + 1) s (.next (s.loadRegs x))

/-- FX07 (R177). -/
def execLdVxDt (x : Reg) (s : State) : Step := .next (s.setReg x s.dt)

/-- FX15 (R178). -/
def execLdDtVx (x : Reg) (s : State) : Step := .next (s.setDt (s.reg x))

/-- FX18 (R179). -/
def execLdStVx (x : Reg) (s : State) : Step := .next (s.setSt (s.reg x))

/-- EX9E (R180). -/
def execSkp (x : Reg) (s : State) : Step := .next (s.skipIf (keyIs x s))

/-- EXA1 (R181). -/
def execSknp (x : Reg) (s : State) : Step := .next (s.skipIf (!keyIs x s))

/-- FX0A (R182): with no key, PC goes back to the instruction; else the key index, zero-extended. -/
def execLdVxK (x : Reg) (s : State) : Step :=
  match s.key with
  | none => .next (s.setPc (s.pc - 2))
  | some k => .next (s.setReg x (BitVec.ofNat 8 k.val))

end Sys2Proof.Machine
end

