-- ==== Sys2Proof/Machine/Step.lean ====
section
/-! DEFINITION. Machine/Step.lean: the engine cycle (30_encoding.md R82), and the placing of one word for it. -/

namespace Sys2Proof.Machine

/-- One step (R82): enabled only when FAULT = none; fetch, PC + 2, decode, execute. A raised fault is the answer; the
state it leaves the block in is `blockAfter` (HostOps.lean). -/
def step (s : State) : Host.Outcome State Fault Refusal :=
  match s.fault with
  | some r => .fault (.notEnabled r)
  | none =>
    match fetch s with
    | .error r => raise r
    | .ok w => exec (decode w) s.advance

/-- `s` with a table word stored at PC, where `step` fetches its next instruction (it stands for the load of a program,
log 11). At a PC from which nothing can be fetched, `s` itself. -/
def State.withFetchWord (s : State) (nbits w : Nat) : State :=
  if s.pc.toNat + 1 < Config.memSize then s.storeBytes s.pc.toNat (tableBytes nbits w) else s

end Sys2Proof.Machine
end

