-- ==== Sys2Proof/Machine/HostOps.lean ====
section
/-! DEFINITION. Machine/HostOps.lean: the host's operations on the block (60_exceptions.md R210; 70_reset_and_hazards.md
R230, R233, R236). Each is one atomic transition (20_memory.md R57); `none` means the operation is not enabled, so the
block has no transition. -/

namespace Sys2Proof.Machine

/-- The operations that change the block (R210). -/
inductive HostOp where
  | reset
  | loadProgram (bytes : List Byte)
  | setKey (k : Option (Fin 16))
  | tick
  | step
deriving DecidableEq, Repr

/-- What an operation answers the host (R210): ok, the load error (R233), or the fault record of a step (R204). -/
inductive HostResult where
  | ok
  | romTooLarge (n : Nat)
  | fault (r : FaultRecord)
deriving DecidableEq, Repr

/-- The code of the load error (R200); a step fault's code is `FaultRecord.code`. -/
def HostResult.code : HostResult → Option Nat
  | .ok => none
  | .romTooLarge _ => some 4
  | .fault r => some r.code

/-- FAULT = none: what every operation but `reset` requires (R201, R210). -/
abbrev State.enabled (s : State) : Prop := s.fault = none

/-- `reset` (R230): every component of R20 at its reset value. The model's own draw counter goes on, so that draws after
a reset are fresh (log 2). -/
def resetBlock (s : State) : State := { State.reset with draws := s.draws }

/-- `tick` (R211): each timer down by one, never below zero. -/
def tickTimers (s : State) : State :=
  { s with dt := if s.dt = 0 then 0 else s.dt - 1, st := if s.st = 0 then 0 else s.st - 1 }

/-- The copy of `load_program` (R233). -/
def loadRom (bytes : List Byte) (s : State) : State := s.storeBytes Config.romBase bytes

/-- The state the block is in after a step that answered `o` (R82, R201): the next state, or, after a raise, the state
from before the step with FAULT set. -/
def blockAfter (s : State) (o : Step) : State :=
  match o with
  | .next t => t
  | .fault (.raised r) => s.latchFault r
  | .fault (.notEnabled _) => s
  | .refused _ => s

/-- `step` as the host invokes it (R82, R210). -/
def hostStep (σ : Session) : Option (Session × HostResult) :=
  match step σ.st with
  | .next t => some ({ σ with st := t, stepped := true }, .ok)
  | .fault (.raised r) => some ({ σ with st := blockAfter σ.st (.fault (.raised r)), stepped := true }, .fault r)
  | .fault (.notEnabled _) => none
  | .refused _ => none

/-- Whether `load_program` is enabled: FAULT = none and no step since reset (R233), and no ROM loaded since reset
(93_implementation_defined.md: "`load_program` after steps, or twice" is stuck, not enabled). -/
abbrev Session.loadEnabled (σ : Session) : Prop := σ.st.enabled ∧ σ.stepped = false ∧ σ.loaded = false

/-- `load_program(bytes)` (R233); too long a ROM writes nothing, and is no load (log 36). -/
def hostLoad (bytes : List Byte) (σ : Session) : Option (Session × HostResult) :=
  if σ.loadEnabled then
    if Config.maxRom < bytes.length then some (σ, .romTooLarge bytes.length)
    else some ({ σ with st := loadRom bytes σ.st, loaded := true }, .ok)
  else none

/-- One host operation (R210). -/
def hostOp : HostOp → Session → Option (Session × HostResult)
  | .reset, σ => some ({ st := resetBlock σ.st, stepped := false, loaded := false }, .ok)
  | .loadProgram bytes, σ => hostLoad bytes σ
  | .setKey k, σ => if σ.st.enabled then some ({ σ with st := σ.st.setKey k }, .ok) else none
  | .tick, σ => if σ.st.enabled then some ({ σ with st := tickTimers σ.st }, .ok) else none
  | .step, σ => hostStep σ

/-- Any sequence of host operations, in any order the block admits (R236, decision D24); none at the first that is not
enabled. -/
def runOps : List HostOp → Session → Option Session
  | [], σ => some σ
  | op :: ops, σ =>
    match hostOp op σ with
    | some (σ', _) => runOps ops σ'
    | none => none

/-- The block as it comes up: reset, nothing loaded, no step (R234). -/
def Session.initial : Session := { st := State.reset, stepped := false, loaded := false }

/-- The operations of one reference iteration (R236); `ev` is the key of this iteration's press event. -/
def iterationOps (ev : Option (Fin 16)) : List HostOp :=
  match ev with
  | none => [.setKey none, .tick, .step]
  | some k => [.setKey none, .setKey (some k), .tick, .step]

/-- One reference iteration (R236). -/
def iteration (ev : Option (Fin 16)) (σ : Session) : Option Session := runOps (iterationOps ev) σ

/-- The display read-out (R214): always enabled, no side effect; true when lit. -/
def readDisplay (s : State) (x y : Nat) : Bool := s.display.cell x y

/-- The host's read of the whole state (R210): always enabled, no side effect. -/
def readState (σ : Session) : State := σ.st

/-- The host's read of the fault latch (R210): always enabled, no side effect. -/
def readFault (σ : Session) : Option FaultRecord := σ.st.fault

end Sys2Proof.Machine
end

