-- ==== Sys2Proof/Safety.lean ====
section
/-! DEFINITION. Safety.lean: the terms that claims are stated in: the parts of the state and what may change, words written
from their nibbles, the invariants, safe runs and the end of a run. -/

namespace Sys2Proof

/-- The word `f x y n` written from its four nibbles (`RR`, `RRS`, `RRN` of 30_encoding.md R75). -/
def opWord (f x y n : Nat) : Word := BitVec.ofNat 16 (f * 4096 + x * 256 + y * 16 + n)

/-- The word of family `f` with register nibble `x` and low byte `nn` (`RI8`, `RS8` of R75). -/
def immWord (f x nn : Nat) : Word := BitVec.ofNat 16 (f * 4096 + x * 256 + nn)

/-- A word whose family nibble is `f` and whose other twelve bits are `nnn` (`A12` of R75). -/
def addrWord (f : Nat) (nnn : BitVec 12) : Word := BitVec.ofNat 16 (f * 4096 + nnn.toNat)

/-- A word with the ignored low nibble of families 5 and 9 (R77) put to 0, as R83 writes it; any other word as it is. -/
def canonicalWord (w : Word) : Word :=
  if w.toNat / 4096 = 5 ∨ w.toNat / 4096 = 9 then BitVec.ofNat 16 (w.toNat / 16 * 16) else w

namespace Machine

/-- The smallest parts of the state: one register, one memory byte, one stack slot, one display cell, and each of the
single components of 10_state.md R20; `draws` is the model's own. -/
inductive Part where
  | reg (x : Reg)
  | byte (a : Nat)
  | slot (k : Fin Config.stackDepth)
  | cell (x y : Nat)
  | index | pc | sp | delay | sound | key | fault | draws
deriving DecidableEq, Repr

/-- Every part of the state outside `may` is the same in `t` as in `s`. -/
structure ChangesOnly (may : Part → Prop) (s t : State) : Prop where
  reg : ∀ x, ¬ may (.reg x) → t.reg x = s.reg x
  byte : ∀ a, ¬ may (.byte a) → t.byte a = s.byte a
  slot : ∀ k : Fin Config.stackDepth, ¬ may (.slot k) → t.stack[k.val] = s.stack[k.val]
  cell : ∀ x y, ¬ may (.cell x y) → t.display.cell x y = s.display.cell x y
  index : ¬ may .index → t.i = s.i
  pc : ¬ may .pc → t.pc = s.pc
  sp : ¬ may .sp → t.sp = s.sp
  delay : ¬ may .delay → t.dt = s.dt
  sound : ¬ may .sound → t.st = s.st
  key : ¬ may .key → t.key = s.key
  fault : ¬ may .fault → t.fault = s.fault
  draws : ¬ may .draws → t.draws = s.draws

/-- The registers an instruction writes, as 10_state.md R23 lists them: V[X], V[0..X] for FX65, and VF beside V[X] for the
five flag writers of R25. FX0A is listed; it writes only when a key is latched (R182). -/
def WritesReg : Instr → Reg → Prop
  | .ldImm x _, r | .addImm x _, r | .rnd x _, r => r = x
  | .ldReg x _, r | .or x _, r | .and x _, r | .xor x _, r => r = x
  | .addReg x _, r | .sub x _, r | .shr x _, r | .subn x _, r | .shl x _, r => r = x ∨ r = Reg.vf
  | .ldVxDt x, r | .ldVxK x, r => r = x
  | .ldVxMem x, r => r ≤ x
  | .cls, _ | .ret, _ | .jp _, _ | .call _, _ | .jpV0 _, _ | .ldI _, _ => False
  | .seImm _ _, _ | .sneImm _ _, _ | .seReg _ _, _ | .sneReg _ _, _ | .skp _, _ | .sknp _, _ => False
  | .drw _ _ _, _ | .ldDtVx _, _ | .ldStVx _, _ | .addIVx _, _ | .ldFVx _, _ => False
  | .ldBVx _, _ | .ldMemVx _, _ | .unknown _, _ => False

/-- How many bytes from I on an instruction reaches (20_memory.md R51); 0 for one that reaches no data. -/
def dataBytes : Instr → Nat
  | .drw _ _ n => n.val
  | .ldBVx _ => 3
  | .ldMemVx x | .ldVxMem x => x.val + 1
  | .cls | .ret | .jp _ | .call _ | .jpV0 _ | .ldI _ => 0
  | .seImm _ _ | .sneImm _ _ | .seReg _ _ | .sneReg _ _ | .skp _ | .sknp _ => 0
  | .ldImm _ _ | .addImm _ _ | .rnd _ _ | .ldReg _ _ | .or _ _ | .and _ _ | .xor _ _ => 0
  | .addReg _ _ | .sub _ _ | .shr _ _ | .subn _ _ | .shl _ _ => 0
  | .ldVxDt _ | .ldVxK _ | .ldDtVx _ | .ldStVx _ | .addIVx _ | .ldFVx _ | .unknown _ => 0

/-- The invariant of the state: memory is in its canonical form, PC is at most 0x10FE (10_state.md R30), and every stack
slot holds at most 0x1000, the largest PC a fetch leaves (30_encoding.md R72). -/
structure State.Inv (s : State) : Prop where
  mem : Memory.wf s.mem
  pc : s.pc.toNat ≤ 0x10FE
  slots : ∀ k : Fin Config.stackDepth, s.stack[k.val].toNat ≤ 0x1000

/-- The invariant of the block as the host drives it: the state's own, and a latched fault record names the instruction at
PC and an address outside memory (60_exceptions.md R200, R201). -/
structure Session.Inv (σ : Session) : Prop where
  state : σ.st.Inv
  faultPc : ∀ r, σ.st.fault = some r → r.pc = σ.st.pc
  faultAddr : ∀ r a, σ.st.fault = some r → r.addr = some a → Config.memSize ≤ a

/-- A safe step: it completes. -/
def StepSafe (s : State) : Prop := ∃ t, step s = .next t

/-- A safe run of `k` steps with no other host operation in between. -/
def RunSafe (k : Nat) (s : State) : Prop := ∃ t, Host.Core.run Sys2Proof.core k s = .next t

/-- The end-of-run notion of 70_reset_and_hazards.md R238: the word at PC is `1NNN` with `NNN = PC`. -/
def AtEndOfRun (s : State) : Prop := ∃ nnn : BitVec 12, fetch s = .ok (addrWord 1 nnn) ∧ zext16 nnn = s.pc

end Machine

end Sys2Proof
end

