-- ==== Sys2Proof/Certificates/Slice0/Obligations.lean ====
section
/-! DEFINITION. Certificates/Slice0/Obligations.lean: the statements for the provers. `exec i s` is stated of the state fetch
leaves, whose PC is `pc_cur + 2` (00_scope.md R14); a word clause writes the instruction's encoding out from its nibbles. -/

open Sys2Proof Sys2Proof.Machine

/-! ## Encoding -/

/-- The words R84 gives with their meaning, and its ROM decoded word by word. -/
def Obligations.SourceWordsDecodeAsTheSourceSays : Prop :=
  decode 0x00E0 = .cls ∧ decode 0x600A = .ldImm 0 0x0A ∧ decode 0x7005 = .addImm 0 0x05 ∧ decode 0x00EE = .ret ∧
  (fieldF 0x600A = 0x6 ∧ fieldX 0x600A = 0 ∧ fieldNN 0x600A = 0x0A) ∧
  (fieldF 0x7005 = 0x7 ∧ fieldX 0x7005 = 0 ∧ fieldNN 0x7005 = 0x05) ∧
  decodeBytes [0x00, 0xE0, 0x60, 0x0A, 0x70, 0x05, 0x00, 0xEE] = .ok (.cls, [0x60, 0x0A, 0x70, 0x05, 0x00, 0xEE]) ∧
  decodeBytes [0x60, 0x0A, 0x70, 0x05, 0x00, 0xEE] = .ok (.ldImm 0 0x0A, [0x70, 0x05, 0x00, 0xEE]) ∧
  decodeBytes [0x70, 0x05, 0x00, 0xEE] = .ok (.addImm 0 0x05, [0x00, 0xEE]) ∧
  decodeBytes [0x00, 0xEE] = .ok (.ret, [])

/-- Decode of encode is the instruction, with every operand at every value (R73, R75, R79, R83). -/
def Obligations.DecodeOfEncodeIsTheInstruction : Prop :=
  ∀ (i : Instr) (rest : List Byte), i.wf = true → decodeBytes (encodeBytes i ++ rest) = .ok (i, rest)

/-- Encode of decode is the word, but for the low nibble that families 5 and 9 ignore (R77; decision D5). -/
def Obligations.EncodeOfDecodeIsTheWord : Prop :=
  ∀ w : Word, (decode w).wf = true ∧ encode (decode w) = canonicalWord w

/-- Decoding agrees with spec/opcode_table.json: a word in an instruction's row decodes into that row, and a word decodes
to `unknown` exactly when no row but the fallback holds it (R79, R80, R81). -/
def Obligations.DecodeAgreesWithTheOpcodeTable : Prop :=
  (∀ (w : Word) (i : Instr), (∀ u, i ≠ .unknown u) → inRow w i.row = true → (decode w).row = i.row) ∧
  (∀ w : Word, inRow w (decode w).row = true) ∧
  (∀ w u : Word, decode w = .unknown u →
    u = w ∧ ∀ i : Instr, (∀ v, i ≠ .unknown v) → inRow w i.row = false)

/-- R77 (decision D5) and R78 (decision D6), over every word of families 0, 5 and 9. -/
def Obligations.FamiliesZeroFiveAndNineDecode : Prop :=
  (∀ nnn : BitVec 12, decode (addrWord 0 nnn) =
    if nnn = 0x0E0 then .cls else if nnn = 0x0EE then .ret else .unknown (addrWord 0 nnn)) ∧
  (∀ (x y : Reg) (n : Fin 16), decode (opWord 0x5 x y n) = .seReg x y ∧ decode (opWord 0x9 x y n) = .sneReg x y)

/-- R80's list of unknown words, and that a step over one changes PC alone (decisions D5, D6 fix the list). -/
def Obligations.UnknownWordsAreNoOps : Prop :=
  (∀ w : Word,
    (∃ u, decode w = .unknown u) ↔
      ((w.toNat / 4096 = 0x0 ∧ w.toNat ≠ 0x00E0 ∧ w.toNat ≠ 0x00EE) ∨
       (w.toNat / 4096 = 0x8 ∧ w.toNat % 16 ∈ [0x8, 0x9, 0xA, 0xB, 0xC, 0xD, 0xF]) ∨
       (w.toNat / 4096 = 0xE ∧ w.toNat % 256 ∉ [0x9E, 0xA1]) ∨
       (w.toNat / 4096 = 0xF ∧ w.toNat % 256 ∉ [0x07, 0x0A, 0x15, 0x18, 0x1E, 0x29, 0x33, 0x55, 0x65]))) ∧
  (∀ (w : Word) (s : State), exec (.unknown w) s = .next s) ∧
  (∀ (s : State) (w u : Word), s.fault = none → fetch s = .ok w → decode w = .unknown u →
    ∃ t, step s = .next t ∧ t.pc = s.pc + 2 ∧ ChangesOnly (fun p => p = .pc) s t)

/-! ## Fetch and step -/

/-- A step of an unfaulted block whose PC has two bytes in memory is the execution of the instruction those bytes decode
to, at the state with PC + 2, a sum that does not wrap (R72, R82). -/
def Obligations.StepRunsTheDecodedInstruction : Prop :=
  ∀ (s : State) (i : Instr), s.fault = none → s.pc.toNat + 1 < 4096 →
    decodeBytes [s.byte s.pc.toNat, s.byte (s.pc.toNat + 1)] = .ok (i, []) →
    i.wf = true ∧ step s = exec i { s with pc := s.pc + 2 } ∧ (s.pc + 2).toNat = s.pc.toNat + 2

/-- Fetch reads big-endian at any address, odd or even, and faults at the lowest byte outside memory (R52, R54, R71;
decisions D7 and D11 of the spec). -/
def Obligations.FetchReadsBigEndianOrFaults : Prop :=
  ∀ s : State,
    (s.pc.toNat + 1 < 4096 →
      ∃ w, fetch s = .ok w ∧ w.toNat = (s.byte s.pc.toNat).toNat * 256 + (s.byte (s.pc.toNat + 1)).toNat) ∧
    (s.fault = none → s.pc.toNat = 4095 → step s = .fault (.raised (.addressOutOfRange s.pc 4096))) ∧
    (s.fault = none → 4096 ≤ s.pc.toNat → step s = .fault (.raised (.addressOutOfRange s.pc s.pc.toNat)))

/-! ## ALU -/

/-- R101 and R102 whole: encoding, result modulo 256, no flag, nothing else changed. -/
def Obligations.ImmediateLoadAndAdd : Prop :=
  ∀ (x : Reg) (nn : Byte) (s : State),
    decode (immWord 0x6 x nn.toNat) = .ldImm x nn ∧ decode (immWord 0x7 x nn.toNat) = .addImm x nn ∧
    (∃ t, exec (.ldImm x nn) s = .next t ∧ t.reg x = nn ∧ ChangesOnly (fun p => p = .reg x) s t) ∧
    (∃ t, exec (.addImm x nn) s = .next t ∧ (t.reg x).toNat = ((s.reg x).toNat + nn.toNat) % 256 ∧
      ChangesOnly (fun p => p = .reg x) s t)

/-- R103 to R106: the register moves and the bitwise operations write V[X] and nothing else. That OR, AND and XOR leave VF
is the spec's decision D3. -/
def Obligations.RegisterMoveAndLogic : Prop :=
  ∀ (x y : Reg) (s : State),
    (decode (opWord 0x8 x y 0x0) = .ldReg x y ∧ decode (opWord 0x8 x y 0x1) = .or x y ∧
      decode (opWord 0x8 x y 0x2) = .and x y ∧ decode (opWord 0x8 x y 0x3) = .xor x y) ∧
    (∃ t, exec (.ldReg x y) s = .next t ∧ t.reg x = s.reg y ∧ ChangesOnly (fun p => p = .reg x) s t) ∧
    (∃ t, exec (.or x y) s = .next t ∧ t.reg x = s.reg x ||| s.reg y ∧ ChangesOnly (fun p => p = .reg x) s t) ∧
    (∃ t, exec (.and x y) s = .next t ∧ t.reg x = s.reg x &&& s.reg y ∧ ChangesOnly (fun p => p = .reg x) s t) ∧
    (∃ t, exec (.xor x y) s = .next t ∧ t.reg x = s.reg x ^^^ s.reg y ∧ ChangesOnly (fun p => p = .reg x) s t)

/-- R107: the sum modulo 256 and the carry. With X = 0xF, VF ends holding the flag: the spec's decision D2. -/
def Obligations.AddRegisterSumAndCarry : Prop :=
  ∀ (x y : Reg) (s : State),
    decode (opWord 0x8 x y 0x4) = .addReg x y ∧
    ∃ t, exec (.addReg x y) s = .next t ∧
      (x ≠ Reg.vf → (t.reg x).toNat = ((s.reg x).toNat + (s.reg y).toNat) % 256) ∧
      t.reg Reg.vf = (if (s.reg x).toNat + (s.reg y).toNat > 255 then 1 else 0) ∧
      ChangesOnly (fun p => p = .reg x ∨ p = .reg Reg.vf) s t

/-- R108 and R110: the difference modulo 256 and NOT borrow. With X = 0xF, VF ends holding the flag: decision D2. -/
def Obligations.SubtractionsAndNoBorrow : Prop :=
  ∀ (x y : Reg) (s : State),
    decode (opWord 0x8 x y 0x5) = .sub x y ∧ decode (opWord 0x8 x y 0x7) = .subn x y ∧
    (∃ t, exec (.sub x y) s = .next t ∧
      (x ≠ Reg.vf → (t.reg x).toNat = ((s.reg x).toNat + 256 - (s.reg y).toNat) % 256) ∧
      t.reg Reg.vf = (if (s.reg x).toNat ≥ (s.reg y).toNat then 1 else 0) ∧
      ChangesOnly (fun p => p = .reg x ∨ p = .reg Reg.vf) s t) ∧
    (∃ t, exec (.subn x y) s = .next t ∧
      (x ≠ Reg.vf → (t.reg x).toNat = ((s.reg y).toNat + 256 - (s.reg x).toNat) % 256) ∧
      t.reg Reg.vf = (if (s.reg y).toNat ≥ (s.reg x).toNat then 1 else 0) ∧
      ChangesOnly (fun p => p = .reg x ∨ p = .reg Reg.vf) s t)

/-- R109 and R111: the source is VY, the flag is the bit shifted out. With X = 0xF, VF ends holding it: decision D2. -/
def Obligations.ShiftsTakeTheSecondRegister : Prop :=
  ∀ (x y : Reg) (s : State),
    decode (opWord 0x8 x y 0x6) = .shr x y ∧ decode (opWord 0x8 x y 0xE) = .shl x y ∧
    (∃ t, exec (.shr x y) s = .next t ∧
      (x ≠ Reg.vf → (t.reg x).toNat = (s.reg y).toNat / 2) ∧
      (t.reg Reg.vf).toNat = (s.reg y).toNat % 2 ∧
      ChangesOnly (fun p => p = .reg x ∨ p = .reg Reg.vf) s t) ∧
    (∃ t, exec (.shl x y) s = .next t ∧
      (x ≠ Reg.vf → (t.reg x).toNat = (s.reg y).toNat * 2 % 256) ∧
      (t.reg Reg.vf).toNat = (s.reg y).toNat / 128 ∧
      ChangesOnly (fun p => p = .reg x ∨ p = .reg Reg.vf) s t)

/-- R112 on this hardware: the draw ORed with NN. The draw is the free value `Config.randomByte` at the model's own counter,
which goes up by one (log 2); that the mask is the byte NN is log 32 (conflict C1, decision D4); the switch RND_AND is off
(log 10, decision D26) and would select AND. -/
def Obligations.RandomByteIsOredWithTheMask : Prop :=
  ∀ (x : Reg) (nn : Byte) (s : State),
    decode (immWord 0xC x nn.toNat) = .rnd x nn ∧
    (∃ t, exec (.rnd x nn) s = .next t ∧ t.reg x = Config.randomByte s.draws ||| nn ∧ t.reg x &&& nn = nn ∧
      t.draws = s.draws + 1 ∧ ChangesOnly (fun p => p = .reg x ∨ p = .draws) s t) ∧
    Config.rndAnd = false ∧ ∀ r : Byte, rndCombine false r nn = r ||| nn ∧ rndCombine true r nn = r &&& nn

/-! ## Control flow -/

/-- R133 and R138: both jumps complete whatever the target, and change PC alone. That BNNN's sum is not masked to 12 bits is
the spec's decision D8. -/
def Obligations.JumpsChangeOnlyThePc : Prop :=
  ∀ (nnn : BitVec 12) (s : State),
    decode (addrWord 0x1 nnn) = .jp nnn ∧ decode (addrWord 0xB nnn) = .jpV0 nnn ∧
    (∃ t, exec (.jp nnn) s = .next t ∧ t.pc.toNat = nnn.toNat ∧ ChangesOnly (fun p => p = .pc) s t) ∧
    (∃ t, exec (.jpV0 nnn) s = .next t ∧ t.pc.toNat = nnn.toNat + (s.reg 0).toNat ∧
      ChangesOnly (fun p => p = .pc) s t)

/-- R131: CALL pushes the PC fetch left and jumps; with the stack full it faults, naming the call's own address. The fault's
form is the spec's decisions D10 and D11. -/
def Obligations.CallPushesTheReturnAddress : Prop :=
  ∀ (nnn : BitVec 12) (s : State),
    decode (addrWord 0x2 nnn) = .call nnn ∧
    (s.sp.val < 16 → ∃ t, exec (.call nnn) s = .next t ∧ t.sp.val = s.sp.val + 1 ∧ t.pc.toNat = nnn.toNat ∧
      (∀ k : Fin 16, k.val = s.sp.val → t.stack[k.val] = s.pc) ∧
      ChangesOnly (fun p => p = .pc ∨ p = .sp ∨ ∃ k : Fin 16, k.val = s.sp.val ∧ p = .slot k) s t) ∧
    (s.sp.val = 16 → exec (.call nnn) s = .fault (.raised (.stackOverflow (s.pc - 2))))

/-- R132: RET pops the slot below SP, which keeps its value (decision D17); with the stack empty it faults. -/
def Obligations.ReturnPopsTheStack : Prop :=
  ∀ s : State,
    decode 0x00EE = .ret ∧
    (0 < s.sp.val → ∃ t, exec .ret s = .next t ∧ t.sp.val + 1 = s.sp.val ∧
      (∀ k : Fin 16, k.val + 1 = s.sp.val → t.pc = s.stack[k.val]) ∧
      ChangesOnly (fun p => p = .pc ∨ p = .sp) s t) ∧
    (s.sp.val = 0 → exec .ret s = .fault (.raised (.stackUnderflow (s.pc - 2))))

/-- R139: a RET that finds the stack as a completed CALL left it gives PC = the call's address + 2. That the popped slot
keeps its value, which the frame says, is the spec's decision D17 (log 24). -/
def Obligations.ReturnUndoesCall : Prop :=
  ∀ (s t u : State) (w : Word) (nnn : BitVec 12),
    fetch s = .ok w → decode w = .call nnn → step s = .next t →
    u.fault = none → fetch u = .ok 0x00EE → u.sp = t.sp → u.stack = t.stack →
    ∃ v, step u = .next v ∧ v.pc = s.pc + 2 ∧ v.sp = s.sp ∧ ChangesOnly (fun p => p = .pc ∨ p = .sp) u v

/-- R134 and R135 whole. -/
def Obligations.SkipsOnAnImmediate : Prop :=
  ∀ (x : Reg) (nn : Byte) (s : State),
    decode (immWord 0x3 x nn.toNat) = .seImm x nn ∧ decode (immWord 0x4 x nn.toNat) = .sneImm x nn ∧
    (∃ t, exec (.seImm x nn) s = .next t ∧ t.pc = (if s.reg x = nn then s.pc + 2 else s.pc) ∧
      ChangesOnly (fun p => p = .pc) s t) ∧
    (∃ t, exec (.sneImm x nn) s = .next t ∧ t.pc = (if s.reg x ≠ nn then s.pc + 2 else s.pc) ∧
      ChangesOnly (fun p => p = .pc) s t)

/-- R136 and R137, for every low nibble (decision D5). -/
def Obligations.SkipsOnTwoRegisters : Prop :=
  ∀ (x y : Reg) (n : Fin 16) (s : State),
    decode (opWord 0x5 x y n) = .seReg x y ∧ decode (opWord 0x9 x y n) = .sneReg x y ∧
    (∃ t, exec (.seReg x y) s = .next t ∧ t.pc = (if s.reg x = s.reg y then s.pc + 2 else s.pc) ∧
      ChangesOnly (fun p => p = .pc) s t) ∧
    (∃ t, exec (.sneReg x y) s = .next t ∧ t.pc = (if s.reg x ≠ s.reg y then s.pc + 2 else s.pc) ∧
      ChangesOnly (fun p => p = .pc) s t)

/-! ## Display -/

/-- R151 whole. -/
def Obligations.ClearDarkensEveryCell : Prop :=
  ∀ s : State, decode 0x00E0 = .cls ∧
    ∃ t, exec .cls s = .next t ∧ (∀ x y, x < 64 → y < 32 → t.display.cell x y = false) ∧
      ChangesOnly (fun p => ∃ x y, x < 64 ∧ y < 32 ∧ p = .cell x y) s t

/-- R152: the wrapped origin, the XOR of each sprite bit on its cell, the clipping, nothing else changed (VF included), and
the range check before any cell changes. The check on every row and the fault are the spec's decisions D9 and D21. -/
def Obligations.DrawXorsTheClippedSprite : Prop :=
  ∀ (x y : Reg) (n : Fin 16) (s : State) (x0 y0 : Nat), x0 = (s.reg x).toNat % 64 → y0 = (s.reg y).toNat % 32 →
    decode (opWord 0xD x y n) = .drw x y n ∧
    (n.val = 0 ∨ s.i.toNat + n.val - 1 < 4096 → ∃ t, exec (.drw x y n) s = .next t ∧
      (∀ r c, r < n.val → c < 8 → x0 + c < 64 → y0 + r < 32 → t.display.cell (x0 + c) (y0 + r) =
        (s.display.cell (x0 + c) (y0 + r) ^^ (s.byte (s.i.toNat + r)).getLsbD (7 - c))) ∧
      ChangesOnly (fun p => ∃ r c, r < n.val ∧ c < 8 ∧ x0 + c < 64 ∧ y0 + r < 32 ∧ p = .cell (x0 + c) (y0 + r)) s t) ∧
    (0 < n.val → 4096 ≤ s.i.toNat + n.val - 1 →
      exec (.drw x y n) s = .fault (.raised (.addressOutOfRange (s.pc - 2) (max s.i.toNat 4096))))

/-- R154, XOR self-inverse: a second draw with equal I, N, origin and sprite bytes restores the bitmap, clipped or not. -/
def Obligations.DrawingTwiceRestoresTheBitmap : Prop :=
  ∀ (x y x' y' : Reg) (n : Fin 16) (s t u : State),
    exec (.drw x y n) s = .next t → u.display = t.display → u.i = s.i →
    (u.reg x').toNat % 64 = (s.reg x).toNat % 64 → (u.reg y').toNat % 32 = (s.reg y).toNat % 32 →
    (∀ r, r < n.val → u.byte (s.i.toNat + r) = s.byte (s.i.toNat + r)) →
    ∃ v, exec (.drw x' y' n) u = .next v ∧ v.display = s.display

/-- R153, the collision unit behind DRAW_SETS_VF (from general knowledge, the spec says): with the switch on, DRW draws the
same bitmap and writes VF by whether a lit cell met a sprite bit; off, which is this hardware (log 10), it leaves VF. -/
def Obligations.CollisionSwitchWritesVf : Prop :=
  ∀ (x y : Reg) (n : Fin 16) (s : State) (x0 y0 : Nat), x0 = (s.reg x).toNat % 64 → y0 = (s.reg y).toNat % 32 →
    (drawSprite true x y n s).display = (drawSprite false x y n s).display ∧
    ((∃ r c, r < n.val ∧ c < 8 ∧ s.display.cell (x0 + c) (y0 + r) = true ∧
        (s.byte (s.i.toNat + r)).getLsbD (7 - c) = true) → (drawSprite true x y n s).reg Reg.vf = 1) ∧
    ((¬ ∃ r c, r < n.val ∧ c < 8 ∧ s.display.cell (x0 + c) (y0 + r) = true ∧
        (s.byte (s.i.toNat + r)).getLsbD (7 - c) = true) → (drawSprite true x y n s).reg Reg.vf = 0) ∧
    ChangesOnly (fun p => p = .reg Reg.vf) (drawSprite false x y n s) (drawSprite true x y n s) ∧
    (drawSprite false x y n s).reg Reg.vf = s.reg Reg.vf ∧ Config.drawSetsVf = false

/-! ## Index, memory, timers, keys -/

/-- R171 whole. -/
def Obligations.LoadIndexImmediate : Prop :=
  ∀ (nnn : BitVec 12) (s : State), decode (addrWord 0xA nnn) = .ldI nnn ∧
    ∃ t, exec (.ldI nnn) s = .next t ∧ t.i.toNat = nnn.toNat ∧ ChangesOnly (fun p => p = .index) s t

/-- R172 and R173. The 16-bit wrap with no flag is the spec's decision D12; FONT_BASE stays open (log 1, decision D14), and
the glyph stride is decision D15. -/
def Obligations.IndexAddAndGlyphAddress : Prop :=
  ∀ (x : Reg) (s : State),
    decode (immWord 0xF x 0x1E) = .addIVx x ∧ decode (immWord 0xF x 0x29) = .ldFVx x ∧
    (∃ t, exec (.addIVx x) s = .next t ∧ t.i.toNat = (s.i.toNat + (s.reg x).toNat) % 65536 ∧
      ChangesOnly (fun p => p = .index) s t) ∧
    (∃ t, exec (.ldFVx x) s = .next t ∧ t.i.toNat = Config.fontBase.val + 5 * ((s.reg x).toNat % 16) ∧
      ChangesOnly (fun p => p = .index) s t)

/-- R174: the three digits at I, I + 1 and I + 2, no other byte; out of range it faults and stores nothing (decision D9). -/
def Obligations.BcdStoresThreeDigits : Prop :=
  ∀ (x : Reg) (s : State),
    decode (immWord 0xF x 0x33) = .ldBVx x ∧
    (s.i.toNat + 2 < 4096 → ∃ t, exec (.ldBVx x) s = .next t ∧
      (t.byte s.i.toNat).toNat = (s.reg x).toNat / 100 ∧
      (t.byte (s.i.toNat + 1)).toNat = (s.reg x).toNat / 10 % 10 ∧
      (t.byte (s.i.toNat + 2)).toNat = (s.reg x).toNat % 10 ∧
      ChangesOnly (fun p => p = .byte s.i.toNat ∨ p = .byte (s.i.toNat + 1) ∨ p = .byte (s.i.toNat + 2)) s t) ∧
    (4096 ≤ s.i.toNat + 2 →
      exec (.ldBVx x) s = .fault (.raised (.addressOutOfRange (s.pc - 2) (max s.i.toNat 4096))))

/-- R175: V0 to VX at I, I + 1, ..., I unchanged (decision D13), no other byte; out of range it faults (decision D9). -/
def Obligations.StoreRegistersFromIndex : Prop :=
  ∀ (x : Reg) (s : State),
    decode (immWord 0xF x 0x55) = .ldMemVx x ∧
    (s.i.toNat + x.val < 4096 → ∃ t, exec (.ldMemVx x) s = .next t ∧
      (∀ k : Reg, k ≤ x → t.byte (s.i.toNat + k.val) = s.reg k) ∧
      ChangesOnly (fun p => ∃ k : Reg, k ≤ x ∧ p = .byte (s.i.toNat + k.val)) s t) ∧
    (4096 ≤ s.i.toNat + x.val →
      exec (.ldMemVx x) s = .fault (.raised (.addressOutOfRange (s.pc - 2) (max s.i.toNat 4096))))

/-- R176: V0 to VX from I, I + 1, ..., I unchanged (decision D13); out of range it faults (decision D9). -/
def Obligations.LoadRegistersFromIndex : Prop :=
  ∀ (x : Reg) (s : State),
    decode (immWord 0xF x 0x65) = .ldVxMem x ∧
    (s.i.toNat + x.val < 4096 → ∃ t, exec (.ldVxMem x) s = .next t ∧
      (∀ k : Reg, k ≤ x → t.reg k = s.byte (s.i.toNat + k.val)) ∧
      ChangesOnly (fun p => ∃ k : Reg, k ≤ x ∧ p = .reg k) s t) ∧
    (4096 ≤ s.i.toNat + x.val →
      exec (.ldVxMem x) s = .fault (.raised (.addressOutOfRange (s.pc - 2) (max s.i.toNat 4096))))

/-- FX55 then FX65 through the same I, with memory as the store left it, brings V0 to VX back (R175, R176). -/
def Obligations.StoreThenLoadBringsRegistersBack : Prop :=
  ∀ (x : Reg) (s t u : State),
    exec (.ldMemVx x) s = .next t → u.i = s.i → (∀ a, u.byte a = t.byte a) →
    ∃ v, exec (.ldVxMem x) u = .next v ∧ ∀ k : Reg, (k ≤ x → v.reg k = s.reg k) ∧ (x < k → v.reg k = u.reg k)

/-- R177 to R179. The pairing of the sub-codes 07, 15 and 18 is from general knowledge, the spec says (log 13). -/
def Obligations.TimerTransfers : Prop :=
  ∀ (x : Reg) (s : State),
    (decode (immWord 0xF x 0x07) = .ldVxDt x ∧ decode (immWord 0xF x 0x15) = .ldDtVx x ∧
      decode (immWord 0xF x 0x18) = .ldStVx x) ∧
    (∃ t, exec (.ldVxDt x) s = .next t ∧ t.reg x = s.dt ∧ ChangesOnly (fun p => p = .reg x) s t) ∧
    (∃ t, exec (.ldDtVx x) s = .next t ∧ t.dt = s.reg x ∧ ChangesOnly (fun p => p = .delay) s t) ∧
    (∃ t, exec (.ldStVx x) s = .next t ∧ t.st = s.reg x ∧ ChangesOnly (fun p => p = .sound) s t)

/-- R180 and R181: all eight bits of VX against the latched key, none equal to no value (decision D18). -/
def Obligations.SkipsOnTheLatchedKey : Prop :=
  ∀ (x : Reg) (s : State),
    decode (immWord 0xE x 0x9E) = .skp x ∧ decode (immWord 0xE x 0xA1) = .sknp x ∧
    (∃ t, exec (.skp x) s = .next t ∧
      t.pc = (if s.key.map Fin.val = some (s.reg x).toNat then s.pc + 2 else s.pc) ∧
      ChangesOnly (fun p => p = .pc) s t) ∧
    (∃ t, exec (.sknp x) s = .next t ∧
      t.pc = (if s.key.map Fin.val = some (s.reg x).toNat then s.pc else s.pc + 2) ∧
      ChangesOnly (fun p => p = .pc) s t)

/-- R182 and R183: with no key the step of FX0A leaves the whole state as it was; with one, VX takes the key index and the
latch stays (decision D19). -/
def Obligations.KeyWaitLeavesTheStateOrLoadsTheKey : Prop :=
  (∀ x : Reg, decode (immWord 0xF x 0x0A) = .ldVxK x) ∧
  (∀ (x : Reg) (s : State), s.key = none →
    ∃ t, exec (.ldVxK x) s = .next t ∧ t.pc = s.pc - 2 ∧ ChangesOnly (fun p => p = .pc) s t) ∧
  (∀ (x : Reg) (s : State) (k : Fin 16), s.key = some k →
    ∃ t, exec (.ldVxK x) s = .next t ∧ (t.reg x).toNat = k.val ∧ ChangesOnly (fun p => p = .reg x) s t) ∧
  (∀ (x : Reg) (s : State), s.fault = none → s.key = none → fetch s = .ok (immWord 0xF x 0x0A) → step s = .next s)

/-! ## Whole-machine rules -/

/-- R23, R25 and R26: no instruction changes a general register but the ones R23 lists, each only its own; the five flag
writers leave 0 or 1 in VF. Decisions of the spec within it: that OR, AND and XOR leave VF (D3, log 16), that FX1E leaves VF
(D12, log 22), and that VF holds the flag, so 0 or 1, when a flag writer has X = F (D2, log 15). -/
def Obligations.OnlyListedInstructionsWriteRegisters : Prop :=
  (∀ (i : Instr) (s t : State) (r : Reg), exec i s = .next t → t.reg r ≠ s.reg r → WritesReg i r) ∧
  (∀ (x y : Reg) (s t : State) (i : Instr),
    i = .addReg x y ∨ i = .sub x y ∨ i = .shr x y ∨ i = .subn x y ∨ i = .shl x y →
    exec i s = .next t → t.reg Reg.vf = 0 ∨ t.reg Reg.vf = 1)

/-- R31, R32, R34, R35, R36, R51, R150: which instructions can change I, SP, the stack, the timers, the display and memory,
and that none changes KEY or FAULT; only RND uses a draw (log 2). Decisions of the spec within it: that FX55 and FX65 leave
I (D13, log 23), that RET leaves the stack slots (D17, log 24), and that FX0A, and so every instruction, leaves KEY (D19,
log 26). -/
def Obligations.OnlyListedInstructionsWriteEachComponent : Prop :=
  ∀ (i : Instr) (s t : State), exec i s = .next t →
    (t.i ≠ s.i → (∃ nnn, i = .ldI nnn) ∨ ∃ x, i = .addIVx x ∨ i = .ldFVx x) ∧
    (t.sp ≠ s.sp → i = .ret ∨ ∃ nnn, i = .call nnn) ∧
    (t.stack ≠ s.stack → ∃ nnn, i = .call nnn) ∧
    (t.dt ≠ s.dt → ∃ x, i = .ldDtVx x) ∧
    (t.st ≠ s.st → ∃ x, i = .ldStVx x) ∧
    (t.display ≠ s.display → i = .cls ∨ ∃ x y n, i = .drw x y n) ∧
    (t.mem ≠ s.mem → ∃ x, i = .ldBVx x ∨ i = .ldMemVx x) ∧
    t.key = s.key ∧ t.fault = s.fault ∧
    (t.draws ≠ s.draws → ∃ x nn, i = .rnd x nn)

/-- R202: decoding gives every word an instruction, and no instruction stops but on the address and stack checks of R200;
none is refused. That a data access with any byte at or above 4096 raises at max(I, 4096), for DRW over all N rows, is the
spec's decisions D9 and D21 (log 21); the record's form is D11 (log 7). -/
def Obligations.NothingStopsButTheNamedChecks : Prop :=
  ∀ (i : Instr) (s : State),
    (∃ t, exec i s = .next t) ∨
    (i = .ret ∧ s.sp.val = 0 ∧ exec i s = .fault (.raised (.stackUnderflow (s.pc - 2)))) ∨
    ((∃ nnn, i = .call nnn) ∧ s.sp.val = 16 ∧ exec i s = .fault (.raised (.stackOverflow (s.pc - 2)))) ∨
    (0 < dataBytes i ∧ 4096 ≤ s.i.toNat + dataBytes i - 1 ∧
      exec i s = .fault (.raised (.addressOutOfRange (s.pc - 2) (max s.i.toNat 4096))))

/-- R28: PC at the end of a step that completes, instruction by instruction. The skip conditions are those of R134 to R137,
R180 and R181, FX0A's is R182's. Decisions of the spec within it: BNNN's sum is not masked (D8, log 20), the key comparison
takes all eight bits of VX (D18, log 25), and 5XYN and 9XYN skip for every low nibble (D5, log 17). -/
def Obligations.PcAfterACompletedStep : Prop :=
  ∀ (s t : State) (w : Word), fetch s = .ok w → step s = .next t →
    match decode w with
    | .jp nnn => t.pc.toNat = nnn.toNat
    | .call nnn => t.pc.toNat = nnn.toNat
    | .jpV0 nnn => t.pc.toNat = nnn.toNat + (s.reg 0).toNat
    | .ret => ∀ k : Fin 16, k.val + 1 = s.sp.val → t.pc = s.stack[k.val]
    | .seImm x nn => t.pc = if s.reg x = nn then s.pc + 4 else s.pc + 2
    | .sneImm x nn => t.pc = if s.reg x = nn then s.pc + 2 else s.pc + 4
    | .seReg x y => t.pc = if s.reg x = s.reg y then s.pc + 4 else s.pc + 2
    | .sneReg x y => t.pc = if s.reg x = s.reg y then s.pc + 2 else s.pc + 4
    | .skp x => t.pc = if s.key.map Fin.val = some (s.reg x).toNat then s.pc + 4 else s.pc + 2
    | .sknp x => t.pc = if s.key.map Fin.val = some (s.reg x).toNat then s.pc + 2 else s.pc + 4
    | .ldVxK _ => t.pc = if s.key = none then s.pc else s.pc + 2
    | _ => t.pc = s.pc + 2

/-! ## Invariants -/

/-- The invariant (canonical memory; PC at most 0x10FE, R30; stack slots at most 0x1000) is kept by every step that
completes, and such a step leaves no fault latched. -/
def Obligations.StepKeepsTheInvariant : Prop :=
  ∀ s t : State, s.Inv → step s = .next t → t.Inv ∧ t.fault = none

/-- The reset state and the block as it comes up meet the invariants. -/
def Obligations.ResetMeetsTheInvariant : Prop :=
  State.reset.Inv ∧ Session.initial.Inv

/-- Every sequence of host operations, faults and resets among them, keeps the block's invariant: the state's own, a latched
record's pc is PC, and its address lies outside memory (R200, R201, R210). That a fault is precise, so that PC is still the
record's, is the spec's decision D10 (log 5); which operations are enabled is D24 (log 33); the canonical form of memory is
the model's own (log 3). -/
def Obligations.HostOperationsKeepTheInvariant : Prop :=
  ∀ (ops : List HostOp) (σ σ' : Session), σ.Inv → runOps ops σ = some σ' → σ'.Inv

/-! ## Faults and host operations -/

/-- R201, R204: a raised fault leaves every component as before the step and sets FAULT to a record that names the
instruction at PC; then no operation but reset is enabled. Precise and absorbing is the spec's decision D10, the disabling
D24; that `step` answers the record and the block holds it is log 5. -/
def Obligations.FaultsArePreciseAndAbsorbing : Prop :=
  (∀ (σ : Session) (r : FaultRecord), step σ.st = .fault (.raised r) →
    r.pc = σ.st.pc ∧ hostOp .step σ = some ({ σ with st := { σ.st with fault := some r }, stepped := true }, .fault r)) ∧
  (∀ (σ : Session) (r : FaultRecord), σ.st.fault = some r →
    hostOp .step σ = none ∧ hostOp .tick σ = none ∧ (∀ k, hostOp (.setKey k) σ = none) ∧
    (∀ bytes, hostOp (.loadProgram bytes) σ = none) ∧
    ∃ σ', hostOp .reset σ = some (σ', .ok) ∧ σ'.st.fault = none)

/-- R230, R37: what `reset` leaves, from every block, faulted or not. I and SP are the spec's decision D16 (log 12); the
font is where the open parameters put it (log 1); the draw counter is the model's own and goes on (log 2). -/
def Obligations.ResetLeavesTheResetState : Prop :=
  ∀ σ : Session, ∃ σ', hostOp .reset σ = some (σ', .ok) ∧ σ'.stepped = false ∧ σ'.loaded = false ∧
    (∀ x, σ'.st.reg x = 0) ∧ σ'.st.i = 0 ∧ σ'.st.pc = 0x200 ∧
    (∀ k : Fin 16, σ'.st.stack[k.val] = 0) ∧ σ'.st.sp = 0 ∧ σ'.st.dt = 0 ∧ σ'.st.st = 0 ∧
    (∀ x y, σ'.st.display.cell x y = false) ∧ σ'.st.key = none ∧ σ'.st.fault = none ∧
    (∀ j : Fin 80, σ'.st.byte (Config.fontBase.val + j.val) = Config.fontGlyphs j) ∧
    (∀ a, a < Config.fontBase.val ∨ Config.fontBase.val + 80 ≤ a → σ'.st.byte a = 0) ∧
    σ'.st.draws = σ.st.draws

/-- R211 over any number of ticks: each timer counts down by one a tick, floored at zero, and nothing else changes. -/
def Obligations.TicksCountBothTimersDown : Prop :=
  ∀ (n : Nat) (σ : Session), σ.st.fault = none →
    ∃ σ', runOps (List.replicate n .tick) σ = some σ' ∧ σ'.stepped = σ.stepped ∧ σ'.loaded = σ.loaded ∧
      σ'.st.dt.toNat = σ.st.dt.toNat - n ∧ σ'.st.st.toNat = σ.st.st.toNat - n ∧
      ChangesOnly (fun p => p = .delay ∨ p = .sound) σ.st σ'.st

/-- R213: set_key writes the latch and nothing else. -/
def Obligations.SetKeyWritesOnlyTheLatch : Prop :=
  ∀ (k : Option (Fin 16)) (σ : Session), σ.st.fault = none →
    ∃ σ', hostOp (.setKey k) σ = some (σ', .ok) ∧ σ'.stepped = σ.stepped ∧ σ'.loaded = σ.loaded ∧ σ'.st.key = k ∧
      ChangesOnly (fun p => p = .key) σ.st σ'.st

/-- R233: the copy to 0x200, the refusal of a ROM over 3584 bytes with nothing written, and that no load is enabled after a
step (decision D28) or after a load (93_implementation_defined.md, row "`load_program` after steps, or twice"). The two
history bits are log 8; that a refused ROM is no load, so that another may follow it, is log 36. -/
def Obligations.LoadProgramCopiesTheRom : Prop :=
  ∀ (bytes : List Byte) (σ : Session), σ.st.fault = none →
    (σ.stepped = true ∨ σ.loaded = true → hostOp (.loadProgram bytes) σ = none) ∧
    (σ.stepped = false → σ.loaded = false → 3584 < bytes.length →
      hostOp (.loadProgram bytes) σ = some (σ, .romTooLarge bytes.length)) ∧
    (σ.stepped = false → σ.loaded = false → bytes.length ≤ 3584 → ∃ σ', hostOp (.loadProgram bytes) σ = some (σ', .ok) ∧
      σ'.stepped = false ∧ σ'.loaded = true ∧ (∀ (k : Nat) (h : k < bytes.length), σ'.st.byte (0x200 + k) = bytes[k]) ∧
      ChangesOnly (fun p => ∃ k, k < bytes.length ∧ p = .byte (0x200 + k)) σ.st σ'.st)

/-- R235, from any PC: zero bytes are no-ops, so k steps over them move PC by 2k and change nothing else; at 0x1000 the next
step faults. From reset with no ROM this is the spec's 1792 steps. -/
def Obligations.ZeroBytesRunToTheTop : Prop :=
  (∀ (k : Nat) (s : State), s.fault = none → s.pc.toNat + 2 * k ≤ 4096 →
    (∀ a, s.pc.toNat ≤ a → a < s.pc.toNat + 2 * k → s.byte a = 0) →
    ∃ t, Host.Core.run Sys2Proof.core k s = .next t ∧ t.pc.toNat = s.pc.toNat + 2 * k ∧
      ChangesOnly (fun p => p = .pc) s t) ∧
  (∃ t, Host.Core.run Sys2Proof.core 1792 State.reset = .next t ∧ t.pc = 0x1000 ∧
    step t = .fault (.raised (.addressOutOfRange 0x1000 0x1000)))

/-- R238: at the end-of-run form (decision D31) a step leaves the whole state unchanged, and so does any number of steps. -/
def Obligations.SelfJumpLeavesTheStateUnchanged : Prop :=
  ∀ (k : Nat) (s : State), s.fault = none → AtEndOfRun s → Host.Core.run Sys2Proof.core k s = .next s

/-- R62: the next fetch sees the bytes FX55 stored, high byte first, when the next PC points among them. That a store is
seen by the next fetch at all is the spec's decision D23 (log 29). -/
def Obligations.NextFetchSeesStoredBytes : Prop :=
  ∀ (x k : Reg) (hk : k.val + 1 < 16) (s t : State), k.val + 1 ≤ x.val →
    exec (.ldMemVx x) s = .next t → t.pc.toNat = s.i.toNat + k.val →
    fetch t = .ok (wordOfBytes (s.reg k) (s.reg ⟨k.val + 1, hk⟩))

/-- R236 and R237: in the reference iteration a value FX15 writes in one iteration is read by FX07 in the next as that value
minus 1, floored at 0, and KEY is the event of its own iteration. That 15 is the sub-code that writes DT and 07 the one that
reads it is the pairing the spec takes from general knowledge (R177, R178; log 13). -/
def Obligations.DelayWrittenIsReadOneLessNextIteration : Prop :=
  ∀ (x y : Reg) (e1 e2 : Option (Fin 16)) (σ : Session), σ.st.fault = none →
    fetch σ.st = .ok (immWord 0xF x 0x15) → fetch σ.st.advance = .ok (immWord 0xF y 0x07) →
    ∃ σ₁ σ₂, iteration e1 σ = some σ₁ ∧ σ₁.st.dt = σ.st.reg x ∧ σ₁.st.key = e1 ∧
      iteration e2 σ₁ = some σ₂ ∧ (σ₂.st.reg y).toNat = (σ.st.reg x).toNat - 1 ∧ σ₂.st.key = e2

/-- R237: FX0A, re-executed once an iteration, waits through any number of iterations with no key event and completes in the
first that has one. -/
def Obligations.KeyWaitEndsAtTheFirstKeyEvent : Prop :=
  ∀ (x : Reg) (k : Fin 16) (n : Nat) (σ : Session), σ.st.fault = none → fetch σ.st = .ok (immWord 0xF x 0x0A) →
    ∃ σ₁ σ₂, runOps (List.replicate n (iterationOps none)).flatten σ = some σ₁ ∧ σ₁.st.pc = σ.st.pc ∧
      (0 < n → σ₁.st.key = none) ∧ (∀ r, σ₁.st.reg r = σ.st.reg r) ∧ σ₁.st.dt.toNat = σ.st.dt.toNat - n ∧
      iteration (some k) σ₁ = some σ₂ ∧ (σ₂.st.reg x).toNat = k.val ∧ σ₂.st.pc = σ.st.pc + 2
end

