-- ==== Sys2Proof/Laws/State.lean ====
section
/-! SUPPORT. Laws/State.lean: what each named update leaves in each field, in each register and in each byte, once, for `simp`. -/

namespace Sys2Proof.Machine

variable (s : State)

/-! ## `setReg` -/
@[simp] theorem State.setReg_mem (x : Reg) (b : Byte) : (s.setReg x b).mem = s.mem := rfl
@[simp] theorem State.setReg_v (x : Reg) (b : Byte) : (s.setReg x b).v = s.v.set x.val b := rfl
@[simp] theorem State.setReg_i (x : Reg) (b : Byte) : (s.setReg x b).i = s.i := rfl
@[simp] theorem State.setReg_pc (x : Reg) (b : Byte) : (s.setReg x b).pc = s.pc := rfl
@[simp] theorem State.setReg_stack (x : Reg) (b : Byte) : (s.setReg x b).stack = s.stack := rfl
@[simp] theorem State.setReg_sp (x : Reg) (b : Byte) : (s.setReg x b).sp = s.sp := rfl
@[simp] theorem State.setReg_dt (x : Reg) (b : Byte) : (s.setReg x b).dt = s.dt := rfl
@[simp] theorem State.setReg_st (x : Reg) (b : Byte) : (s.setReg x b).st = s.st := rfl
@[simp] theorem State.setReg_display (x : Reg) (b : Byte) : (s.setReg x b).display = s.display := rfl
@[simp] theorem State.setReg_key (x : Reg) (b : Byte) : (s.setReg x b).key = s.key := rfl
@[simp] theorem State.setReg_fault (x : Reg) (b : Byte) : (s.setReg x b).fault = s.fault := rfl
@[simp] theorem State.setReg_draws (x : Reg) (b : Byte) : (s.setReg x b).draws = s.draws := rfl
@[simp] theorem State.setReg_byte (x : Reg) (b : Byte) (c : Nat) : (s.setReg x b).byte c = s.byte c := rfl

/-! ## `setRegFlag` -/
@[simp] theorem State.setRegFlag_mem (x : Reg) (b : Byte) (f : Bool) : (s.setRegFlag x b f).mem = s.mem := by simp [State.setRegFlag]
@[simp] theorem State.setRegFlag_v (x : Reg) (b : Byte) (f : Bool) : (s.setRegFlag x b f).v = (s.v.set x.val b).set Reg.vf.val (flagByte f) := rfl
@[simp] theorem State.setRegFlag_i (x : Reg) (b : Byte) (f : Bool) : (s.setRegFlag x b f).i = s.i := by simp [State.setRegFlag]
@[simp] theorem State.setRegFlag_pc (x : Reg) (b : Byte) (f : Bool) : (s.setRegFlag x b f).pc = s.pc := by simp [State.setRegFlag]
@[simp] theorem State.setRegFlag_stack (x : Reg) (b : Byte) (f : Bool) : (s.setRegFlag x b f).stack = s.stack := by simp [State.setRegFlag]
@[simp] theorem State.setRegFlag_sp (x : Reg) (b : Byte) (f : Bool) : (s.setRegFlag x b f).sp = s.sp := by simp [State.setRegFlag]
@[simp] theorem State.setRegFlag_dt (x : Reg) (b : Byte) (f : Bool) : (s.setRegFlag x b f).dt = s.dt := by simp [State.setRegFlag]
@[simp] theorem State.setRegFlag_st (x : Reg) (b : Byte) (f : Bool) : (s.setRegFlag x b f).st = s.st := by simp [State.setRegFlag]
@[simp] theorem State.setRegFlag_display (x : Reg) (b : Byte) (f : Bool) : (s.setRegFlag x b f).display = s.display := by simp [State.setRegFlag]
@[simp] theorem State.setRegFlag_key (x : Reg) (b : Byte) (f : Bool) : (s.setRegFlag x b f).key = s.key := by simp [State.setRegFlag]
@[simp] theorem State.setRegFlag_fault (x : Reg) (b : Byte) (f : Bool) : (s.setRegFlag x b f).fault = s.fault := by simp [State.setRegFlag]
@[simp] theorem State.setRegFlag_draws (x : Reg) (b : Byte) (f : Bool) : (s.setRegFlag x b f).draws = s.draws := by simp [State.setRegFlag]
@[simp] theorem State.setRegFlag_byte (x : Reg) (b : Byte) (f : Bool) (c : Nat) : (s.setRegFlag x b f).byte c = s.byte c := by simp [State.setRegFlag]

/-! ## `loadRegs` -/
@[simp] theorem State.loadRegs_mem (x : Reg) : (s.loadRegs x).mem = s.mem := by simp only [State.loadRegs]
@[simp] theorem State.loadRegs_i (x : Reg) : (s.loadRegs x).i = s.i := by simp only [State.loadRegs]
@[simp] theorem State.loadRegs_pc (x : Reg) : (s.loadRegs x).pc = s.pc := by simp only [State.loadRegs]
@[simp] theorem State.loadRegs_stack (x : Reg) : (s.loadRegs x).stack = s.stack := by simp only [State.loadRegs]
@[simp] theorem State.loadRegs_sp (x : Reg) : (s.loadRegs x).sp = s.sp := by simp only [State.loadRegs]
@[simp] theorem State.loadRegs_dt (x : Reg) : (s.loadRegs x).dt = s.dt := by simp only [State.loadRegs]
@[simp] theorem State.loadRegs_st (x : Reg) : (s.loadRegs x).st = s.st := by simp only [State.loadRegs]
@[simp] theorem State.loadRegs_display (x : Reg) : (s.loadRegs x).display = s.display := by simp only [State.loadRegs]
@[simp] theorem State.loadRegs_key (x : Reg) : (s.loadRegs x).key = s.key := by simp only [State.loadRegs]
@[simp] theorem State.loadRegs_fault (x : Reg) : (s.loadRegs x).fault = s.fault := by simp only [State.loadRegs]
@[simp] theorem State.loadRegs_draws (x : Reg) : (s.loadRegs x).draws = s.draws := by simp only [State.loadRegs]
@[simp] theorem State.loadRegs_byte (x : Reg) (c : Nat) : (s.loadRegs x).byte c = s.byte c := by simp only [State.byte, State.loadRegs_mem]

/-! ## `storeBytes` -/
@[simp] theorem State.storeBytes_mem (a : Nat) (bs : List Byte) : (s.storeBytes a bs).mem = Memory.storeBytes s.mem a bs := rfl
@[simp] theorem State.storeBytes_v (a : Nat) (bs : List Byte) : (s.storeBytes a bs).v = s.v := rfl
@[simp] theorem State.storeBytes_i (a : Nat) (bs : List Byte) : (s.storeBytes a bs).i = s.i := rfl
@[simp] theorem State.storeBytes_pc (a : Nat) (bs : List Byte) : (s.storeBytes a bs).pc = s.pc := rfl
@[simp] theorem State.storeBytes_stack (a : Nat) (bs : List Byte) : (s.storeBytes a bs).stack = s.stack := rfl
@[simp] theorem State.storeBytes_sp (a : Nat) (bs : List Byte) : (s.storeBytes a bs).sp = s.sp := rfl
@[simp] theorem State.storeBytes_dt (a : Nat) (bs : List Byte) : (s.storeBytes a bs).dt = s.dt := rfl
@[simp] theorem State.storeBytes_st (a : Nat) (bs : List Byte) : (s.storeBytes a bs).st = s.st := rfl
@[simp] theorem State.storeBytes_display (a : Nat) (bs : List Byte) : (s.storeBytes a bs).display = s.display := rfl
@[simp] theorem State.storeBytes_key (a : Nat) (bs : List Byte) : (s.storeBytes a bs).key = s.key := rfl
@[simp] theorem State.storeBytes_fault (a : Nat) (bs : List Byte) : (s.storeBytes a bs).fault = s.fault := rfl
@[simp] theorem State.storeBytes_draws (a : Nat) (bs : List Byte) : (s.storeBytes a bs).draws = s.draws := rfl
@[simp] theorem State.storeBytes_reg (a : Nat) (bs : List Byte) (y : Reg) : (s.storeBytes a bs).reg y = s.reg y := rfl

/-! ## `setI` -/
@[simp] theorem State.setI_mem (w : Word) : (s.setI w).mem = s.mem := rfl
@[simp] theorem State.setI_v (w : Word) : (s.setI w).v = s.v := rfl
@[simp] theorem State.setI_i (w : Word) : (s.setI w).i = w := rfl
@[simp] theorem State.setI_pc (w : Word) : (s.setI w).pc = s.pc := rfl
@[simp] theorem State.setI_stack (w : Word) : (s.setI w).stack = s.stack := rfl
@[simp] theorem State.setI_sp (w : Word) : (s.setI w).sp = s.sp := rfl
@[simp] theorem State.setI_dt (w : Word) : (s.setI w).dt = s.dt := rfl
@[simp] theorem State.setI_st (w : Word) : (s.setI w).st = s.st := rfl
@[simp] theorem State.setI_display (w : Word) : (s.setI w).display = s.display := rfl
@[simp] theorem State.setI_key (w : Word) : (s.setI w).key = s.key := rfl
@[simp] theorem State.setI_fault (w : Word) : (s.setI w).fault = s.fault := rfl
@[simp] theorem State.setI_draws (w : Word) : (s.setI w).draws = s.draws := rfl
@[simp] theorem State.setI_reg (w : Word) (y : Reg) : (s.setI w).reg y = s.reg y := rfl
@[simp] theorem State.setI_byte (w : Word) (c : Nat) : (s.setI w).byte c = s.byte c := rfl

/-! ## `setPc` -/
@[simp] theorem State.setPc_mem (w : Word) : (s.setPc w).mem = s.mem := rfl
@[simp] theorem State.setPc_v (w : Word) : (s.setPc w).v = s.v := rfl
@[simp] theorem State.setPc_i (w : Word) : (s.setPc w).i = s.i := rfl
@[simp] theorem State.setPc_pc (w : Word) : (s.setPc w).pc = w := rfl
@[simp] theorem State.setPc_stack (w : Word) : (s.setPc w).stack = s.stack := rfl
@[simp] theorem State.setPc_sp (w : Word) : (s.setPc w).sp = s.sp := rfl
@[simp] theorem State.setPc_dt (w : Word) : (s.setPc w).dt = s.dt := rfl
@[simp] theorem State.setPc_st (w : Word) : (s.setPc w).st = s.st := rfl
@[simp] theorem State.setPc_display (w : Word) : (s.setPc w).display = s.display := rfl
@[simp] theorem State.setPc_key (w : Word) : (s.setPc w).key = s.key := rfl
@[simp] theorem State.setPc_fault (w : Word) : (s.setPc w).fault = s.fault := rfl
@[simp] theorem State.setPc_draws (w : Word) : (s.setPc w).draws = s.draws := rfl
@[simp] theorem State.setPc_reg (w : Word) (y : Reg) : (s.setPc w).reg y = s.reg y := rfl
@[simp] theorem State.setPc_byte (w : Word) (c : Nat) : (s.setPc w).byte c = s.byte c := rfl

/-! ## `advance` -/
@[simp] theorem State.advance_mem : s.advance.mem = s.mem := rfl
@[simp] theorem State.advance_v : s.advance.v = s.v := rfl
@[simp] theorem State.advance_i : s.advance.i = s.i := rfl
@[simp] theorem State.advance_pc : s.advance.pc = s.pc + 2 := rfl
@[simp] theorem State.advance_stack : s.advance.stack = s.stack := rfl
@[simp] theorem State.advance_sp : s.advance.sp = s.sp := rfl
@[simp] theorem State.advance_dt : s.advance.dt = s.dt := rfl
@[simp] theorem State.advance_st : s.advance.st = s.st := rfl
@[simp] theorem State.advance_display : s.advance.display = s.display := rfl
@[simp] theorem State.advance_key : s.advance.key = s.key := rfl
@[simp] theorem State.advance_fault : s.advance.fault = s.fault := rfl
@[simp] theorem State.advance_draws : s.advance.draws = s.draws := rfl
@[simp] theorem State.advance_reg (y : Reg) : s.advance.reg y = s.reg y := rfl
@[simp] theorem State.advance_byte (c : Nat) : s.advance.byte c = s.byte c := rfl

/-! ## `setDt` -/
@[simp] theorem State.setDt_mem (b : Byte) : (s.setDt b).mem = s.mem := rfl
@[simp] theorem State.setDt_v (b : Byte) : (s.setDt b).v = s.v := rfl
@[simp] theorem State.setDt_i (b : Byte) : (s.setDt b).i = s.i := rfl
@[simp] theorem State.setDt_pc (b : Byte) : (s.setDt b).pc = s.pc := rfl
@[simp] theorem State.setDt_stack (b : Byte) : (s.setDt b).stack = s.stack := rfl
@[simp] theorem State.setDt_sp (b : Byte) : (s.setDt b).sp = s.sp := rfl
@[simp] theorem State.setDt_dt (b : Byte) : (s.setDt b).dt = b := rfl
@[simp] theorem State.setDt_st (b : Byte) : (s.setDt b).st = s.st := rfl
@[simp] theorem State.setDt_display (b : Byte) : (s.setDt b).display = s.display := rfl
@[simp] theorem State.setDt_key (b : Byte) : (s.setDt b).key = s.key := rfl
@[simp] theorem State.setDt_fault (b : Byte) : (s.setDt b).fault = s.fault := rfl
@[simp] theorem State.setDt_draws (b : Byte) : (s.setDt b).draws = s.draws := rfl
@[simp] theorem State.setDt_reg (b : Byte) (y : Reg) : (s.setDt b).reg y = s.reg y := rfl
@[simp] theorem State.setDt_byte (b : Byte) (c : Nat) : (s.setDt b).byte c = s.byte c := rfl

/-! ## `setSt` -/
@[simp] theorem State.setSt_mem (b : Byte) : (s.setSt b).mem = s.mem := rfl
@[simp] theorem State.setSt_v (b : Byte) : (s.setSt b).v = s.v := rfl
@[simp] theorem State.setSt_i (b : Byte) : (s.setSt b).i = s.i := rfl
@[simp] theorem State.setSt_pc (b : Byte) : (s.setSt b).pc = s.pc := rfl
@[simp] theorem State.setSt_stack (b : Byte) : (s.setSt b).stack = s.stack := rfl
@[simp] theorem State.setSt_sp (b : Byte) : (s.setSt b).sp = s.sp := rfl
@[simp] theorem State.setSt_dt (b : Byte) : (s.setSt b).dt = s.dt := rfl
@[simp] theorem State.setSt_st (b : Byte) : (s.setSt b).st = b := rfl
@[simp] theorem State.setSt_display (b : Byte) : (s.setSt b).display = s.display := rfl
@[simp] theorem State.setSt_key (b : Byte) : (s.setSt b).key = s.key := rfl
@[simp] theorem State.setSt_fault (b : Byte) : (s.setSt b).fault = s.fault := rfl
@[simp] theorem State.setSt_draws (b : Byte) : (s.setSt b).draws = s.draws := rfl
@[simp] theorem State.setSt_reg (b : Byte) (y : Reg) : (s.setSt b).reg y = s.reg y := rfl
@[simp] theorem State.setSt_byte (b : Byte) (c : Nat) : (s.setSt b).byte c = s.byte c := rfl

/-! ## `setKey` -/
@[simp] theorem State.setKey_mem (k : Option (Fin 16)) : (s.setKey k).mem = s.mem := rfl
@[simp] theorem State.setKey_v (k : Option (Fin 16)) : (s.setKey k).v = s.v := rfl
@[simp] theorem State.setKey_i (k : Option (Fin 16)) : (s.setKey k).i = s.i := rfl
@[simp] theorem State.setKey_pc (k : Option (Fin 16)) : (s.setKey k).pc = s.pc := rfl
@[simp] theorem State.setKey_stack (k : Option (Fin 16)) : (s.setKey k).stack = s.stack := rfl
@[simp] theorem State.setKey_sp (k : Option (Fin 16)) : (s.setKey k).sp = s.sp := rfl
@[simp] theorem State.setKey_dt (k : Option (Fin 16)) : (s.setKey k).dt = s.dt := rfl
@[simp] theorem State.setKey_st (k : Option (Fin 16)) : (s.setKey k).st = s.st := rfl
@[simp] theorem State.setKey_display (k : Option (Fin 16)) : (s.setKey k).display = s.display := rfl
@[simp] theorem State.setKey_key (k : Option (Fin 16)) : (s.setKey k).key = k := rfl
@[simp] theorem State.setKey_fault (k : Option (Fin 16)) : (s.setKey k).fault = s.fault := rfl
@[simp] theorem State.setKey_draws (k : Option (Fin 16)) : (s.setKey k).draws = s.draws := rfl
@[simp] theorem State.setKey_reg (k : Option (Fin 16)) (y : Reg) : (s.setKey k).reg y = s.reg y := rfl
@[simp] theorem State.setKey_byte (k : Option (Fin 16)) (c : Nat) : (s.setKey k).byte c = s.byte c := rfl

/-! ## `setDisplay` -/
@[simp] theorem State.setDisplay_mem (d : Display) : (s.setDisplay d).mem = s.mem := rfl
@[simp] theorem State.setDisplay_v (d : Display) : (s.setDisplay d).v = s.v := rfl
@[simp] theorem State.setDisplay_i (d : Display) : (s.setDisplay d).i = s.i := rfl
@[simp] theorem State.setDisplay_pc (d : Display) : (s.setDisplay d).pc = s.pc := rfl
@[simp] theorem State.setDisplay_stack (d : Display) : (s.setDisplay d).stack = s.stack := rfl
@[simp] theorem State.setDisplay_sp (d : Display) : (s.setDisplay d).sp = s.sp := rfl
@[simp] theorem State.setDisplay_dt (d : Display) : (s.setDisplay d).dt = s.dt := rfl
@[simp] theorem State.setDisplay_st (d : Display) : (s.setDisplay d).st = s.st := rfl
@[simp] theorem State.setDisplay_display (d : Display) : (s.setDisplay d).display = d := rfl
@[simp] theorem State.setDisplay_key (d : Display) : (s.setDisplay d).key = s.key := rfl
@[simp] theorem State.setDisplay_fault (d : Display) : (s.setDisplay d).fault = s.fault := rfl
@[simp] theorem State.setDisplay_draws (d : Display) : (s.setDisplay d).draws = s.draws := rfl
@[simp] theorem State.setDisplay_reg (d : Display) (y : Reg) : (s.setDisplay d).reg y = s.reg y := rfl
@[simp] theorem State.setDisplay_byte (d : Display) (c : Nat) : (s.setDisplay d).byte c = s.byte c := rfl

/-! ## `takeDraw` -/
@[simp] theorem State.takeDraw_mem : s.takeDraw.mem = s.mem := rfl
@[simp] theorem State.takeDraw_v : s.takeDraw.v = s.v := rfl
@[simp] theorem State.takeDraw_i : s.takeDraw.i = s.i := rfl
@[simp] theorem State.takeDraw_pc : s.takeDraw.pc = s.pc := rfl
@[simp] theorem State.takeDraw_stack : s.takeDraw.stack = s.stack := rfl
@[simp] theorem State.takeDraw_sp : s.takeDraw.sp = s.sp := rfl
@[simp] theorem State.takeDraw_dt : s.takeDraw.dt = s.dt := rfl
@[simp] theorem State.takeDraw_st : s.takeDraw.st = s.st := rfl
@[simp] theorem State.takeDraw_display : s.takeDraw.display = s.display := rfl
@[simp] theorem State.takeDraw_key : s.takeDraw.key = s.key := rfl
@[simp] theorem State.takeDraw_fault : s.takeDraw.fault = s.fault := rfl
@[simp] theorem State.takeDraw_draws : s.takeDraw.draws = s.draws + 1 := rfl
@[simp] theorem State.takeDraw_reg (y : Reg) : s.takeDraw.reg y = s.reg y := rfl
@[simp] theorem State.takeDraw_byte (c : Nat) : s.takeDraw.byte c = s.byte c := rfl

/-! ## `latchFault` -/
@[simp] theorem State.latchFault_mem (r : FaultRecord) : (s.latchFault r).mem = s.mem := rfl
@[simp] theorem State.latchFault_v (r : FaultRecord) : (s.latchFault r).v = s.v := rfl
@[simp] theorem State.latchFault_i (r : FaultRecord) : (s.latchFault r).i = s.i := rfl
@[simp] theorem State.latchFault_pc (r : FaultRecord) : (s.latchFault r).pc = s.pc := rfl
@[simp] theorem State.latchFault_stack (r : FaultRecord) : (s.latchFault r).stack = s.stack := rfl
@[simp] theorem State.latchFault_sp (r : FaultRecord) : (s.latchFault r).sp = s.sp := rfl
@[simp] theorem State.latchFault_dt (r : FaultRecord) : (s.latchFault r).dt = s.dt := rfl
@[simp] theorem State.latchFault_st (r : FaultRecord) : (s.latchFault r).st = s.st := rfl
@[simp] theorem State.latchFault_display (r : FaultRecord) : (s.latchFault r).display = s.display := rfl
@[simp] theorem State.latchFault_key (r : FaultRecord) : (s.latchFault r).key = s.key := rfl
@[simp] theorem State.latchFault_fault (r : FaultRecord) : (s.latchFault r).fault = some r := rfl
@[simp] theorem State.latchFault_draws (r : FaultRecord) : (s.latchFault r).draws = s.draws := rfl
@[simp] theorem State.latchFault_reg (r : FaultRecord) (y : Reg) : (s.latchFault r).reg y = s.reg y := rfl
@[simp] theorem State.latchFault_byte (r : FaultRecord) (c : Nat) : (s.latchFault r).byte c = s.byte c := rfl

/-! ## `skipIf` -/
@[simp] theorem State.skipIf_false : s.skipIf false = s := rfl
@[simp] theorem State.skipIf_true : s.skipIf true = s.advance := rfl
@[simp] theorem State.skipIf_mem (c : Bool) : (s.skipIf c).mem = s.mem := by cases c <;> rfl
@[simp] theorem State.skipIf_v (c : Bool) : (s.skipIf c).v = s.v := by cases c <;> rfl
@[simp] theorem State.skipIf_i (c : Bool) : (s.skipIf c).i = s.i := by cases c <;> rfl
@[simp] theorem State.skipIf_pc (c : Bool) : (s.skipIf c).pc = if c then s.pc + 2 else s.pc := by cases c <;> rfl
@[simp] theorem State.skipIf_stack (c : Bool) : (s.skipIf c).stack = s.stack := by cases c <;> rfl
@[simp] theorem State.skipIf_sp (c : Bool) : (s.skipIf c).sp = s.sp := by cases c <;> rfl
@[simp] theorem State.skipIf_dt (c : Bool) : (s.skipIf c).dt = s.dt := by cases c <;> rfl
@[simp] theorem State.skipIf_st (c : Bool) : (s.skipIf c).st = s.st := by cases c <;> rfl
@[simp] theorem State.skipIf_display (c : Bool) : (s.skipIf c).display = s.display := by cases c <;> rfl
@[simp] theorem State.skipIf_key (c : Bool) : (s.skipIf c).key = s.key := by cases c <;> rfl
@[simp] theorem State.skipIf_fault (c : Bool) : (s.skipIf c).fault = s.fault := by cases c <;> rfl
@[simp] theorem State.skipIf_draws (c : Bool) : (s.skipIf c).draws = s.draws := by cases c <;> rfl
@[simp] theorem State.skipIf_reg (c : Bool) (y : Reg) : (s.skipIf c).reg y = s.reg y := by cases c <;> rfl
@[simp] theorem State.skipIf_byte (c : Bool) (a : Nat) : (s.skipIf c).byte a = s.byte a := by cases c <;> rfl

/-! ## `tickTimers` -/
@[simp] theorem tickTimers_mem : (tickTimers s).mem = s.mem := rfl
@[simp] theorem tickTimers_v : (tickTimers s).v = s.v := rfl
@[simp] theorem tickTimers_i : (tickTimers s).i = s.i := rfl
@[simp] theorem tickTimers_pc : (tickTimers s).pc = s.pc := rfl
@[simp] theorem tickTimers_stack : (tickTimers s).stack = s.stack := rfl
@[simp] theorem tickTimers_sp : (tickTimers s).sp = s.sp := rfl
@[simp] theorem tickTimers_dt : (tickTimers s).dt = if s.dt = 0 then 0 else s.dt - 1 := rfl
@[simp] theorem tickTimers_st : (tickTimers s).st = if s.st = 0 then 0 else s.st - 1 := rfl
@[simp] theorem tickTimers_display : (tickTimers s).display = s.display := rfl
@[simp] theorem tickTimers_key : (tickTimers s).key = s.key := rfl
@[simp] theorem tickTimers_fault : (tickTimers s).fault = s.fault := rfl
@[simp] theorem tickTimers_draws : (tickTimers s).draws = s.draws := rfl
@[simp] theorem tickTimers_reg (y : Reg) : (tickTimers s).reg y = s.reg y := rfl
@[simp] theorem tickTimers_byte (a : Nat) : (tickTimers s).byte a = s.byte a := rfl

end Sys2Proof.Machine
end

