-- ==== Sys2Proof/Laws/Memory.lean ====
section
/-! SUPPORT. Laws/Memory.lean: a read after a write, consecutive stores, and that every memory operation keeps the
canonical form. The read laws hold of every list, canonical or not. -/

namespace Sys2Proof.Machine

namespace Memory

theorem read_insert_same (m : Memory) (a : Nat) (v : Byte) : read (insert a v m) a = v := by
  induction m with
  | nil => simp [insert, read]
  | cons c m ih =>
    obtain ⟨b, w⟩ := c
    simp only [insert]
    split_ifs with h1 h2
    · simp [read]
    · simp [read]
    · simp [read, h2, ih]

theorem read_insert_other (m : Memory) {a b : Nat} (v : Byte) (h : b ≠ a) :
    read (insert a v m) b = read m b := by
  induction m with
  | nil => simp [insert, read, h]
  | cons c m ih =>
    obtain ⟨d, w⟩ := c
    simp only [insert]
    split_ifs with h1 h2
    · simp [read, h]
    · subst h2; simp [read, h]
    · simp [read, ih]

theorem read_erase_same (m : Memory) (a : Nat) : read (erase a m) a = initialByte a := by
  induction m with
  | nil => rfl
  | cons c m ih =>
    obtain ⟨b, w⟩ := c
    by_cases h : b = a
    · simpa [erase, h] using ih
    · have h' : ¬ a = b := fun e => h e.symm
      simpa [erase, h, read, h'] using ih

theorem read_erase_other (m : Memory) {a b : Nat} (h : b ≠ a) : read (erase a m) b = read m b := by
  induction m with
  | nil => rfl
  | cons c m ih =>
    obtain ⟨d, w⟩ := c
    by_cases hd : d = a
    · subst hd; simpa [erase, read, h] using ih
    · simp only [erase, List.filter_cons, bne_iff_ne, ne_eq, hd, not_false_eq_true, if_true, read]
      split_ifs
      · rfl
      · exact ih

/-- A read of the written address gives the byte written. -/
@[simp] theorem read_write_same (m : Memory) (a : Nat) (v : Byte) : read (write m a v) a = v := by
  unfold write
  split_ifs with h
  · rw [read_erase_same, h]
  · exact read_insert_same m a v

/-- A write leaves every other address alone. -/
theorem read_write_other (m : Memory) {a b : Nat} (v : Byte) (h : b ≠ a) : read (write m a v) b = read m b := by
  unfold write
  split_ifs
  · exact read_erase_other m h
  · exact read_insert_other m v h

/-- Consecutive stores leave every address outside the stored bytes alone. -/
theorem read_storeBytes_outside (bs : List Byte) (m : Memory) (a b : Nat) (h : b < a ∨ a + bs.length ≤ b) :
    read (storeBytes m a bs) b = read m b := by
  induction bs generalizing m a with
  | nil => rfl
  | cons v bs ih =>
    simp only [List.length_cons] at h
    rw [storeBytes, ih _ _ (by omega), read_write_other m v (by omega)]

/-- After consecutive stores, the k-th address reads the k-th byte. -/
theorem read_storeBytes_inside (bs : List Byte) (m : Memory) (a k : Nat) (h : k < bs.length) :
    read (storeBytes m a bs) (a + k) = bs[k] := by
  induction bs generalizing m a k with
  | nil => simp at h
  | cons v bs ih =>
    rw [storeBytes]
    cases k with
    | zero => rw [Nat.add_zero, read_storeBytes_outside _ _ _ _ (by omega)]; simp
    | succ k =>
      have := ih (write m a v) (a + 1) k (by simpa using h)
      rw [show a + (k + 1) = a + 1 + k by omega, this]; simp

/-! ## The canonical form -/

theorem mem_insert (m : Memory) (a : Nat) (v : Byte) (c : Host.Cell) (h : c ∈ insert a v m) : c = (a, v) ∨ c ∈ m := by
  induction m with
  | nil => simpa [insert] using h
  | cons d m ih =>
    obtain ⟨b, w⟩ := d
    simp only [insert] at h
    split_ifs at h with h1 h2
    · simpa using h
    · simp only [List.mem_cons] at h ⊢; tauto
    · simp only [List.mem_cons] at h ⊢
      rcases h with h | h
      · exact .inr (.inl h)
      · rcases ih h with h | h <;> tauto

theorem sorted_insert (m : Memory) (a : Nat) (v : Byte) (h : (m.map Prod.fst).Pairwise (· < ·)) :
    ((insert a v m).map Prod.fst).Pairwise (· < ·) := by
  induction m with
  | nil => simp [insert]
  | cons d m ih =>
    obtain ⟨b, w⟩ := d
    simp only [List.map_cons, List.pairwise_cons] at h
    obtain ⟨hb, hm⟩ := h
    simp only [insert]
    split_ifs with h1 h2
    · simp only [List.map_cons, List.pairwise_cons, List.mem_cons]
      refine ⟨?_, hb, hm⟩
      rintro x (rfl | hx)
      · exact h1
      · exact lt_trans h1 (hb x hx)
    · subst h2
      simp only [List.map_cons, List.pairwise_cons]
      exact ⟨hb, hm⟩
    · simp only [List.map_cons, List.pairwise_cons]
      refine ⟨?_, ih hm⟩
      intro x hx
      obtain ⟨c, hc, rfl⟩ := List.mem_map.1 hx
      rcases mem_insert m a v c hc with rfl | hc
      · simp only; omega
      · exact hb _ (List.mem_map_of_mem hc)

theorem wf_nil : Memory.wf [] := by simp [wf]

theorem wf_erase {m : Memory} (h : m.wf) (a : Nat) : (erase a m).wf := by
  refine ⟨?_, fun c hc => h.2 c (List.mem_of_mem_filter hc)⟩
  exact h.1.sublist (List.Sublist.map _ List.filter_sublist)

theorem wf_insert {m : Memory} (h : m.wf) {a : Nat} {v : Byte} (ha : a < Config.memSize) (hv : v ≠ initialByte a) :
    (insert a v m).wf := by
  refine ⟨sorted_insert m a v h.1, fun c hc => ?_⟩
  rcases mem_insert m a v c hc with rfl | hc
  · exact ⟨ha, hv⟩
  · exact h.2 c hc

/-- A write inside memory keeps the canonical form. -/
theorem wf_write {m : Memory} (h : m.wf) {a : Nat} (v : Byte) (ha : a < Config.memSize) : (write m a v).wf := by
  unfold write
  split_ifs with hv
  · exact wf_erase h a
  · exact wf_insert h ha hv

/-- Consecutive stores inside memory keep the canonical form. -/
theorem wf_storeBytes (bs : List Byte) {m : Memory} (h : m.wf) (a : Nat) (ha : a + bs.length ≤ Config.memSize) :
    (storeBytes m a bs).wf := by
  induction bs generalizing m a with
  | nil => exact h
  | cons v bs ih =>
    simp only [List.length_cons] at ha
    exact ih (wf_write h v (by omega)) (a + 1) (by omega)

end Memory

/-! ## The same, of the state -/

theorem State.byte_storeBytes_outside (s : State) (bs : List Byte) (a b : Nat) (h : b < a ∨ a + bs.length ≤ b) :
    (s.storeBytes a bs).byte b = s.byte b :=
  Memory.read_storeBytes_outside bs s.mem a b h

theorem State.byte_storeBytes_inside (s : State) (bs : List Byte) (a k : Nat) (h : k < bs.length) :
    (s.storeBytes a bs).byte (a + k) = bs[k] :=
  Memory.read_storeBytes_inside bs s.mem a k h

/-- Above the reserved region an unlisted address reads 0 (10_state.md R37). -/
theorem initialByte_program {a : Nat} (h : 0x200 ≤ a) : initialByte a = 0 := by
  simp [initialByte, Config.romBase, h]

/-- The font bytes lie at FONT_BASE (10_state.md R33), below 0x200 (00_scope.md R9). -/
theorem fontBase_add_lt (j : Nat) (h : j < 80) : fontBase + j < 0x200 := by
  have := Config.fontBase.isLt
  unfold fontBase
  omega

theorem initialByte_font {j : Nat} (h : j < 80) : initialByte (fontBase + j) = fontByte j := by
  have := fontBase_add_lt j h
  simp [initialByte, Config.romBase]
  omega

/-- Outside the font, memory reads 0 after reset (10_state.md R37). -/
theorem initialByte_outside_font {a : Nat} (h : a < fontBase ∨ fontBase + 80 ≤ a) : initialByte a = 0 := by
  unfold initialByte
  split_ifs with h1 h2
  · rfl
  · simp [fontByte]; omega
  · rfl

end Sys2Proof.Machine
end

