-- ==== Sys2Proof/Laws/Ops.lean ====
section
/-! SUPPORT. Laws/Ops.lean: one lemma for each shared operation that says everything it can do. -/

namespace Sys2Proof.Machine

variable (s : State)

/-! ## Registers -/

@[simp] theorem State.reg_setReg_same (x : Reg) (b : Byte) : (s.setReg x b).reg x = b := by
  simp [State.reg, State.setReg]

theorem State.reg_setReg_other {x y : Reg} (b : Byte) (h : y ≠ x) : (s.setReg x b).reg y = s.reg y := by
  have h' : x.val ≠ y.val := fun e => h (Fin.ext e.symm)
  simp [State.reg, State.setReg, h']

theorem State.reg_setReg (x y : Reg) (b : Byte) : (s.setReg x b).reg y = if y = x then b else s.reg y := by
  split_ifs with h
  · subst h; simp
  · exact s.reg_setReg_other b h

/-- A result written with its flag (40_alu.md R100): VF ends holding the flag, whatever X is. -/
theorem State.reg_setRegFlag (x y : Reg) (b : Byte) (f : Bool) :
    (s.setRegFlag x b f).reg y = if y = Reg.vf then flagByte f else if y = x then b else s.reg y := by
  rw [State.setRegFlag, State.reg_setReg, State.reg_setReg]

/-- FX65's load (43_index_timer_input.md R176). -/
theorem State.reg_loadRegs (x y : Reg) :
    (s.loadRegs x).reg y = if y ≤ x then s.byte (s.i.toNat + y.val) else s.reg y := by
  simp [State.reg, State.loadRegs]

theorem length_regsUpTo (x : Reg) : (regsUpTo x s).length = x.val + 1 := by
  have := x.isLt
  simp only [regsUpTo, List.length_take, Vector.length_toList]
  omega

theorem getElem_regsUpTo (x : Reg) (k : Nat) (h : k < (regsUpTo x s).length) :
    (regsUpTo x s)[k] = s.reg ⟨k, by have := length_regsUpTo s x; omega⟩ := by
  simp [regsUpTo, State.reg]

/-! ## Stack -/

theorem State.push_full (w : Word) (h : s.sp.val = 16) : s.push w = none := by
  simp [State.push, Config.stackDepth, h]

/-- A push that succeeds (41_control_flow.md R131): the slot at SP, and SP + 1. -/
theorem State.push_room (w : Word) (h : s.sp.val < 16) :
    s.push w = some { s with stack := s.stack.set s.sp.val w h, sp := ⟨s.sp.val + 1, Nat.succ_lt_succ h⟩ } := by
  simp [State.push, Config.stackDepth, h]

theorem State.pop_empty (h : s.sp.val = 0) : s.pop = none := by
  simp [State.pop, h]

/-- A pop that succeeds (R132): SP - 1, the slot kept. -/
theorem State.pop_some (h : 0 < s.sp.val) :
    s.pop = some (s.stack[s.sp.val - 1]'(by have := s.sp.isLt; unfold Config.stackDepth at *; omega), { s with sp := ⟨s.sp.val - 1, by omega⟩ }) := by
  simp [State.pop, h]

/-! ## The range check of R55 -/

theorem guardBlock_in {n : Nat} {s : State} (go : Step) (h : s.BlockInRange n) : guardBlock n s go = go := if_pos h

theorem guardBlock_out {n : Nat} {s : State} (go : Step) (h : ¬ s.BlockInRange n) :
    guardBlock n s go = raise (.addressOutOfRange s.pcCur (max s.i.toNat 4096)) := if_neg h

/-- A guarded access that completes was in range. -/
theorem guardBlock_next {n : Nat} {s t : State} {go : Step} (h : guardBlock n s go = .next t) :
    s.BlockInRange n ∧ go = .next t := by
  unfold guardBlock at h
  split_ifs at h with hr
  · exact ⟨hr, h⟩
  · cases h

/-! ## Fetch -/

/-- A fetch that succeeds (30_encoding.md R71): both bytes are in memory. -/
theorem fetch_ok (h : s.pc.toNat + 1 < 4096) :
    fetch s = .ok (wordOfBytes (s.byte s.pc.toNat) (s.byte (s.pc.toNat + 1))) := by
  unfold fetch Config.memSize
  rw [if_neg (by omega), if_neg (by omega)]

theorem fetch_first_byte_out (h : 4096 ≤ s.pc.toNat) :
    fetch s = .error (.addressOutOfRange s.pc s.pc.toNat) := by
  unfold fetch Config.memSize
  rw [if_pos h]

theorem fetch_second_byte_out (h : s.pc.toNat = 4095) : fetch s = .error (.addressOutOfRange s.pc 4096) := by
  unfold fetch Config.memSize
  rw [if_neg (by omega), if_pos (by omega), h]

/-- A fetch that answers a word was in range. -/
theorem fetch_ok_inv {w : Word} (h : fetch s = .ok w) :
    s.pc.toNat + 1 < 4096 ∧ w = wordOfBytes (s.byte s.pc.toNat) (s.byte (s.pc.toNat + 1)) := by
  unfold fetch Config.memSize at h
  split_ifs at h with h1 h2
  · cases h; exact ⟨by omega, rfl⟩

/-- `pc_cur` of the advanced state is the PC from before fetch (00_scope.md R14). -/
@[simp] theorem State.pcCur_advance : s.advance.pcCur = s.pc := by
  simp [State.pcCur]

/-! ## The step -/

/-- Every way a step can complete (R82): nothing latched, both bytes in memory, and the decoded instruction's next state. -/
theorem step_next {s t : State} (h : step s = .next t) :
    s.fault = none ∧ s.pc.toNat + 1 < 4096 ∧
      exec (decode (wordOfBytes (s.byte s.pc.toNat) (s.byte (s.pc.toNat + 1)))) s.advance = .next t := by
  unfold step at h
  split at h
  · cases h
  · rename_i hf
    split at h
    · cases h
    · rename_i w hw
      obtain ⟨hp, rfl⟩ := fetch_ok_inv s hw
      exact ⟨hf, hp, h⟩

/-- A step of an unfaulted block that can fetch is the decoded instruction's. -/
theorem step_exec (hf : s.fault = none) (hp : s.pc.toNat + 1 < 4096) :
    step s = exec (decode (wordOfBytes (s.byte s.pc.toNat) (s.byte (s.pc.toNat + 1)))) s.advance := by
  unfold step
  rw [hf, fetch_ok s hp]

/-- PC + 2 after a successful fetch does not wrap (R72). -/
theorem State.advance_toNat (h : s.pc.toNat + 1 < 4096) : (s.pc + 2).toNat = s.pc.toNat + 2 := by
  rw [BitVec.toNat_add]
  show (s.pc.toNat + 2) % 65536 = _
  omega

end Sys2Proof.Machine
end

