-- ==== Sys2Proof/Laws/DisplayUnit.lean ====
section
/-! SUPPORT. Laws/DisplayUnit.lean: what one XORed cell, one sprite row, one sprite and a clear leave in every cell
(42_display.md R151, R152). -/

namespace Sys2Proof.Machine

namespace Display

/-- Two bitmaps with equal cells are equal. -/
theorem ext_cells {d e : Display} (h : ∀ x y, x < 64 → y < 32 → d.cell x y = e.cell x y) : d = e := by
  apply Vector.ext
  intro y hy
  apply Vector.ext
  intro x hx
  have := h x y hx hy
  simpa [cell, hx, hy, Config.displayW, Config.displayH] using this

theorem cell_outside (d : Display) {x y : Nat} (h : ¬ (x < 64 ∧ y < 32)) : d.cell x y = false := dif_neg h

@[simp] theorem cell_clear (x y : Nat) : clear.cell x y = false := by
  unfold cell clear
  split_ifs <;> simp

/-- One XORed bit changes its own cell and no other; outside the display it is dropped. -/
theorem cell_xorCell (d : Display) (px py : Nat) (b : Bool) (x y : Nat) :
    (d.xorCell px py b).cell x y =
      (d.cell x y ^^ (decide (x < 64 ∧ y < 32) && decide (x = px ∧ y = py) && b)) := by
  unfold cell xorCell Config.displayW Config.displayH
  by_cases hxy : x < 64 ∧ y < 32
  · by_cases hp : px < 64 ∧ py < 32
    · by_cases he : y = py
      · subst he
        by_cases hx : x = px
        · subst hx; simp [hp]
        · have : px ≠ x := fun e => hx e.symm
          simp [hxy, hp, hx, this]
      · have : py ≠ y := fun e => he e.symm
        simp [hxy, hp, he, this]
    · have : ¬ (x = px ∧ y = py) := by rintro ⟨rfl, rfl⟩; exact hp hxy
      simp [hxy, hp, this]
  · simp [hxy]

/-- The bit of a sprite row that falls on column `x`, drawn from column `x0` on over `n` columns: bit 7 - c at x0 + c. -/
def rowBit (row : Byte) (x0 n x : Nat) : Bool :=
  decide (x0 ≤ x ∧ x < x0 + n) && row.getLsbD (7 - (x - x0))

theorem cell_drawRow (row : Byte) (x0 py : Nat) (n : Nat) (d : Display) (x y : Nat) :
    (drawRow row x0 py n d).cell x y =
      (d.cell x y ^^ (decide (x < 64 ∧ y < 32) && decide (y = py) && rowBit row x0 n x)) := by
  induction n with
  | zero =>
    have h : rowBit row x0 0 x = false := by
      have : ¬ (x0 ≤ x ∧ x < x0 + 0) := by omega
      rw [rowBit, decide_eq_false this, Bool.false_and]
    simp [drawRow, h]
  | succ c ih =>
    rw [drawRow, cell_xorCell, ih]
    by_cases hy : y = py
    · by_cases hx : x = x0 + c
      · subst hx hy
        have h1 : rowBit row x0 c (x0 + c) = false := by simp [rowBit]
        have h2 : rowBit row x0 (c + 1) (x0 + c) = row.getLsbD (7 - c) := by simp [rowBit]
        simp [h1, h2]
      · have h3 : rowBit row x0 (c + 1) x = rowBit row x0 c x := by
          have : (x0 ≤ x ∧ x < x0 + (c + 1)) ↔ (x0 ≤ x ∧ x < x0 + c) := by omega
          simp [rowBit, this]
        simp [h3, hx]
    · simp [hy]

/-- The bit of a sprite that falls on cell (x, y) when its origin is (x0, y0) and it has `n` rows (R152). -/
def spriteBit (rows : Nat → Byte) (x0 y0 n x y : Nat) : Bool :=
  decide (y0 ≤ y ∧ y < y0 + n) && rowBit (rows (y - y0)) x0 8 x

/-- What a drawn sprite leaves in every cell: the XOR of the cell and the sprite's bit there. -/
theorem cell_drawRows (rows : Nat → Byte) (x0 y0 n : Nat) (d : Display) (x y : Nat) :
    (drawRows rows x0 y0 n d).cell x y =
      (d.cell x y ^^ (decide (x < 64 ∧ y < 32) && spriteBit rows x0 y0 n x y)) := by
  induction n with
  | zero =>
    have h : spriteBit rows x0 y0 0 x y = false := by
      have : ¬ (y0 ≤ y ∧ y < y0 + 0) := by omega
      rw [spriteBit, decide_eq_false this, Bool.false_and]
    simp [drawRows, h]
  | succ r ih =>
    rw [drawRows, cell_drawRow, ih]
    by_cases hy : y = y0 + r
    · subst hy
      have h1 : spriteBit rows x0 y0 r x (y0 + r) = false := by simp [spriteBit]
      have h2 : spriteBit rows x0 y0 (r + 1) x (y0 + r) = rowBit (rows r) x0 8 x := by simp [spriteBit]
      simp [h1, h2]
    · have h3 : spriteBit rows x0 y0 (r + 1) x y = spriteBit rows x0 y0 r x y := by
        have : (y0 ≤ y ∧ y < y0 + (r + 1)) ↔ (y0 ≤ y ∧ y < y0 + r) := by omega
        simp [spriteBit, this]
      simp [h3, hy]

/-- The collision signal (R153): some sprite bit 1 falls on a lit cell. -/
theorem collides_iff (d : Display) (rows : Nat → Byte) (x0 y0 n : Nat) :
    d.collides rows x0 y0 n = true ↔
      ∃ r < n, ∃ c < 8, d.cell (x0 + c) (y0 + r) = true ∧ (rows r).getLsbD (7 - c) = true := by
  simp [collides]

end Display

/-- With the switch off, which is this hardware, DRW's effect is the drawn bitmap and nothing else (R152). -/
@[simp] theorem drawSprite_off (x y : Reg) (n : Fin 16) (s : State) :
    drawSprite Config.drawSetsVf x y n s = s.setDisplay (drawnDisplay x y n s) := rfl

end Sys2Proof.Machine
end

