-- ==== Sys2Proof/Laws/Encoding.lean ====
section
/-! SUPPORT. Laws/Encoding.lean: every field of a word as a number, the number of each encoded layout, and so the fields of
every encoded word and of every word written from its nibbles. -/

namespace Sys2Proof

/-! ## Fields as numbers (30_encoding.md R73) -/

theorem toNat_fieldF (w : Word) : (fieldF w).toNat = w.toNat / 4096 := by
  simp [fieldF, Nat.shiftRight_eq_div_pow]; omega

theorem val_fieldX (w : Word) : (fieldX w).val = w.toNat / 256 % 16 := by
  simp [fieldX, Nat.shiftRight_eq_div_pow]

theorem val_fieldY (w : Word) : (fieldY w).val = w.toNat / 16 % 16 := by
  simp [fieldY, Nat.shiftRight_eq_div_pow]

theorem toNat_fieldN (w : Word) : (fieldN w).toNat = w.toNat % 16 := by
  simp [fieldN]

theorem toNat_fieldNN (w : Word) : (fieldNN w).toNat = w.toNat % 256 := by
  simp [fieldNN]

theorem toNat_fieldNNN (w : Word) : (fieldNNN w).toNat = w.toNat % 4096 := by
  simp [fieldNNN]

/-- A test of a dispatch field is a test of the word's number (R76). -/
theorem fieldF_eq_iff (w : Word) (f : BitVec 4) : fieldF w = f ↔ w.toNat / 4096 = f.toNat := by
  rw [← BitVec.toNat_inj, toNat_fieldF]

theorem fieldN_eq_iff (w : Word) (n : BitVec 4) : fieldN w = n ↔ w.toNat % 16 = n.toNat := by
  rw [← BitVec.toNat_inj, toNat_fieldN]

theorem fieldNN_eq_iff (w : Word) (nn : Byte) : fieldNN w = nn ↔ w.toNat % 256 = nn.toNat := by
  rw [← BitVec.toNat_inj, toNat_fieldNN]

/-! ## Layouts as numbers (R75) -/

theorem toNat_encA12 (f : BitVec 4) (nnn : BitVec 12) : (encA12 f nnn).toNat = f.toNat * 4096 + nnn.toNat := by
  have h : (encA12 f nnn).toNat = f.toNat <<< 12 ||| nnn.toNat := BitVec.toNat_append f nnn
  rw [h, ← Nat.shiftLeft_add_eq_or_of_lt nnn.isLt, Nat.shiftLeft_eq]

theorem toNat_encRI8 (f : BitVec 4) (x : Reg) (nn : Byte) :
    (encRI8 f x nn).toNat = f.toNat * 4096 + x.val * 256 + nn.toNat := by
  have h : (encRI8 f x nn).toNat = (f.toNat <<< 4 ||| x.val) <<< 8 ||| nn.toNat := by
    have := BitVec.toNat_append (f ++ (BitVec.ofFin x : BitVec 4)) nn
    rw [BitVec.toNat_append] at this
    exact this
  rw [h, ← Nat.shiftLeft_add_eq_or_of_lt nn.isLt, ← Nat.shiftLeft_add_eq_or_of_lt (show x.val < 2 ^ 4 from x.isLt)]
  omega

theorem toNat_encRRN (f : BitVec 4) (x y : Reg) (n : BitVec 4) :
    (encRRN f x y n).toNat = f.toNat * 4096 + x.val * 256 + y.val * 16 + n.toNat := by
  have h : (encRRN f x y n).toNat = ((f.toNat <<< 4 ||| x.val) <<< 4 ||| y.val) <<< 4 ||| n.toNat := by
    have := BitVec.toNat_append (f ++ (BitVec.ofFin x : BitVec 4) ++ (BitVec.ofFin y : BitVec 4)) n
    rw [BitVec.toNat_append, BitVec.toNat_append] at this
    exact this
  rw [h, ← Nat.shiftLeft_add_eq_or_of_lt n.isLt, ← Nat.shiftLeft_add_eq_or_of_lt (show y.val < 2 ^ 4 from y.isLt),
    ← Nat.shiftLeft_add_eq_or_of_lt (show x.val < 2 ^ 4 from x.isLt)]
  omega

/-- The encoder's layouts are the words written from nibbles. -/
theorem encRRN_eq_opWord (f : BitVec 4) (x y : Reg) (n : BitVec 4) :
    encRRN f x y n = opWord f.toNat x.val y.val n.toNat := by
  apply BitVec.eq_of_toNat_eq
  have := f.isLt; have := x.isLt; have := y.isLt; have := n.isLt
  rw [toNat_encRRN, opWord, BitVec.toNat_ofNat, Nat.mod_eq_of_lt (by omega)]

theorem encRI8_eq_immWord (f : BitVec 4) (x : Reg) (nn : Byte) :
    encRI8 f x nn = immWord f.toNat x.val nn.toNat := by
  apply BitVec.eq_of_toNat_eq
  have := f.isLt; have := x.isLt; have := nn.isLt
  rw [toNat_encRI8, immWord, BitVec.toNat_ofNat, Nat.mod_eq_of_lt (by omega)]

theorem encA12_eq_addrWord (f : BitVec 4) (nnn : BitVec 12) : encA12 f nnn = addrWord f.toNat nnn := by
  apply BitVec.eq_of_toNat_eq
  have := f.isLt; have := nnn.isLt
  rw [toNat_encA12, addrWord, BitVec.toNat_ofNat, Nat.mod_eq_of_lt (by omega)]

/-! ## Fields of an encoded word -/

@[simp] theorem fieldF_encA12 (f : BitVec 4) (nnn : BitVec 12) : fieldF (encA12 f nnn) = f := by
  apply BitVec.eq_of_toNat_eq
  have := nnn.isLt
  rw [toNat_fieldF, toNat_encA12]; omega

@[simp] theorem fieldNNN_encA12 (f : BitVec 4) (nnn : BitVec 12) : fieldNNN (encA12 f nnn) = nnn := by
  apply BitVec.eq_of_toNat_eq
  have := nnn.isLt
  rw [toNat_fieldNNN, toNat_encA12]; omega

@[simp] theorem fieldF_encRI8 (f : BitVec 4) (x : Reg) (nn : Byte) : fieldF (encRI8 f x nn) = f := by
  apply BitVec.eq_of_toNat_eq
  have := x.isLt; have := nn.isLt
  rw [toNat_fieldF, toNat_encRI8]; omega

@[simp] theorem fieldX_encRI8 (f : BitVec 4) (x : Reg) (nn : Byte) : fieldX (encRI8 f x nn) = x := by
  apply Fin.ext
  have := x.isLt; have := nn.isLt
  rw [val_fieldX, toNat_encRI8]; omega

@[simp] theorem fieldNN_encRI8 (f : BitVec 4) (x : Reg) (nn : Byte) : fieldNN (encRI8 f x nn) = nn := by
  apply BitVec.eq_of_toNat_eq
  have := nn.isLt
  rw [toNat_fieldNN, toNat_encRI8]; omega

@[simp] theorem fieldF_encRRN (f : BitVec 4) (x y : Reg) (n : BitVec 4) : fieldF (encRRN f x y n) = f := by
  apply BitVec.eq_of_toNat_eq
  have := x.isLt; have := y.isLt; have := n.isLt
  rw [toNat_fieldF, toNat_encRRN]; omega

@[simp] theorem fieldX_encRRN (f : BitVec 4) (x y : Reg) (n : BitVec 4) : fieldX (encRRN f x y n) = x := by
  apply Fin.ext
  have := x.isLt; have := y.isLt; have := n.isLt
  rw [val_fieldX, toNat_encRRN]; omega

@[simp] theorem fieldY_encRRN (f : BitVec 4) (x y : Reg) (n : BitVec 4) : fieldY (encRRN f x y n) = y := by
  apply Fin.ext
  have := y.isLt; have := n.isLt
  rw [val_fieldY, toNat_encRRN]; omega

@[simp] theorem fieldN_encRRN (f : BitVec 4) (x y : Reg) (n : BitVec 4) : fieldN (encRRN f x y n) = n := by
  apply BitVec.eq_of_toNat_eq
  have := n.isLt
  rw [toNat_fieldN, toNat_encRRN]; omega

/-! ## The masks of the opcode table, as fields -/

theorem and_F000 (w : Word) : (w &&& 0xF000#16).toNat = w.toNat / 4096 * 4096 := by
  have h : w &&& 0xF000#16 = (w >>> 12) <<< 12 := by
    apply BitVec.eq_of_getLsbD_eq
    intro i hi
    interval_cases i <;> simp
  rw [h, BitVec.toNat_shiftLeft, BitVec.toNat_ushiftRight, Nat.shiftRight_eq_div_pow, Nat.shiftLeft_eq]
  omega

/-- A mask of the family nibble and the low `k` bits keeps just those. -/
theorem and_family_low (w m : Word) (k : Nat) (hk : k ≤ 12) (hm : m = 0xF000#16 ||| BitVec.ofNat 16 (2 ^ k - 1)) :
    (w &&& m).toNat = w.toNat / 4096 * 4096 + w.toNat % 2 ^ k := by
  have hp : 2 ^ k ≤ 2 ^ 12 := Nat.pow_le_pow_right (by omega) hk
  have hl : (w &&& BitVec.ofNat 16 (2 ^ k - 1)).toNat = w.toNat % 2 ^ k := by
    rw [BitVec.toNat_and, BitVec.toNat_ofNat, Nat.mod_eq_of_lt (by omega), Nat.and_two_pow_sub_one_eq_mod]
  have hlt : w.toNat % 2 ^ k < 2 ^ 12 := lt_of_lt_of_le (Nat.mod_lt _ (by positivity)) hp
  have hs : w.toNat / 4096 * 4096 = (w.toNat / 4096) <<< 12 := by rw [Nat.shiftLeft_eq]
  rw [hm, show w &&& (0xF000#16 ||| BitVec.ofNat 16 (2 ^ k - 1)) =
      (w &&& 0xF000#16) ||| (w &&& BitVec.ofNat 16 (2 ^ k - 1)) from BitVec.and_or_distrib_left,
    BitVec.toNat_or, and_F000, hl, hs, ← Nat.shiftLeft_add_eq_or_of_lt hlt]

theorem and_F00F (w : Word) : (w &&& 0xF00F#16).toNat = w.toNat / 4096 * 4096 + w.toNat % 16 :=
  and_family_low w _ 4 (by omega) (by decide)

theorem and_F0FF (w : Word) : (w &&& 0xF0FF#16).toNat = w.toNat / 4096 * 4096 + w.toNat % 256 :=
  and_family_low w _ 8 (by omega) (by decide)

theorem and_FFFF (w : Word) : w &&& 0xFFFF#16 = w := by
  apply BitVec.eq_of_getLsbD_eq
  intro i hi
  interval_cases i <;> simp

/-- A word is in a row exactly when the fields the row fixes have the row's values. -/
theorem inRow_F000 (w m : Word) : inRow w (m, 0xF000) = decide (w.toNat / 4096 * 4096 = m.toNat) := by
  rw [inRow, ← and_F000, Bool.eq_iff_iff, beq_iff_eq, decide_eq_true_iff, BitVec.toNat_inj]
  exact Iff.rfl

theorem inRow_F00F (w m : Word) :
    inRow w (m, 0xF00F) = decide (w.toNat / 4096 * 4096 + w.toNat % 16 = m.toNat) := by
  rw [inRow, ← and_F00F, Bool.eq_iff_iff, beq_iff_eq, decide_eq_true_iff, BitVec.toNat_inj]
  exact Iff.rfl

theorem inRow_F0FF (w m : Word) :
    inRow w (m, 0xF0FF) = decide (w.toNat / 4096 * 4096 + w.toNat % 256 = m.toNat) := by
  rw [inRow, ← and_F0FF, Bool.eq_iff_iff, beq_iff_eq, decide_eq_true_iff, BitVec.toNat_inj]
  exact Iff.rfl

theorem inRow_FFFF (w m : Word) : inRow w (m, 0xFFFF) = decide (w.toNat = m.toNat) := by
  rw [inRow, Bool.eq_iff_iff, beq_iff_eq, decide_eq_true_iff, BitVec.toNat_inj]
  exact iff_of_eq (congrArg (· = m) (and_FFFF w))

/-! ## Bytes of a word (20_memory.md R52) -/

theorem toNat_wordOfBytes (hi lo : Byte) : (wordOfBytes hi lo).toNat = hi.toNat * 256 + lo.toNat := by
  have h : (wordOfBytes hi lo).toNat = hi.toNat <<< 8 ||| lo.toNat := BitVec.toNat_append hi lo
  rw [h, ← Nat.shiftLeft_add_eq_or_of_lt lo.isLt, Nat.shiftLeft_eq]

theorem toNat_highByte (w : Word) : (highByte w).toNat = w.toNat / 256 := by
  simp [highByte, Nat.shiftRight_eq_div_pow]; omega

theorem toNat_lowByte (w : Word) : (lowByte w).toNat = w.toNat % 256 := by
  simp [lowByte]

@[simp] theorem wordOfBytes_high_low (w : Word) : wordOfBytes (highByte w) (lowByte w) = w := by
  apply BitVec.eq_of_toNat_eq
  rw [toNat_wordOfBytes, toNat_highByte, toNat_lowByte]; omega

end Sys2Proof
end

