-- ==== Sys2Proof/Laws/Frames.lean ====
section
/-! SUPPORT. Laws/Frames.lean: what each shared operation leaves unchanged, as a `ChangesOnly`, and the ways the meanings
with more than one outcome can complete. -/

namespace Sys2Proof.Machine

variable {s t u : State}

namespace ChangesOnly

/-- A frame may be read as a wider one. -/
theorem mono {m m' : Part → Prop} (h : ChangesOnly m s t) (hm : ∀ p, m p → m' p) : ChangesOnly m' s t where
  reg x hx := h.reg x fun c => hx (hm _ c)
  byte a ha := h.byte a fun c => ha (hm _ c)
  slot k hk := h.slot k fun c => hk (hm _ c)
  cell x y hc := h.cell x y fun c => hc (hm _ c)
  index hp := h.index fun c => hp (hm _ c)
  pc hp := h.pc fun c => hp (hm _ c)
  sp hp := h.sp fun c => hp (hm _ c)
  delay hp := h.delay fun c => hp (hm _ c)
  sound hp := h.sound fun c => hp (hm _ c)
  key hp := h.key fun c => hp (hm _ c)
  fault hp := h.fault fun c => hp (hm _ c)
  draws hp := h.draws fun c => hp (hm _ c)

theorem refl (m : Part → Prop) (s : State) : ChangesOnly m s s := by
  constructor <;> intros <;> rfl

theorem trans {m : Part → Prop} (h : ChangesOnly m s t) (h' : ChangesOnly m t u) : ChangesOnly m s u where
  reg x hx := (h'.reg x hx).trans (h.reg x hx)
  byte a ha := (h'.byte a ha).trans (h.byte a ha)
  slot k hk := (h'.slot k hk).trans (h.slot k hk)
  cell x y hc := (h'.cell x y hc).trans (h.cell x y hc)
  index hp := (h'.index hp).trans (h.index hp)
  pc hp := (h'.pc hp).trans (h.pc hp)
  sp hp := (h'.sp hp).trans (h.sp hp)
  delay hp := (h'.delay hp).trans (h.delay hp)
  sound hp := (h'.sound hp).trans (h.sound hp)
  key hp := (h'.key hp).trans (h.key hp)
  fault hp := (h'.fault hp).trans (h.fault hp)
  draws hp := (h'.draws hp).trans (h.draws hp)

end ChangesOnly

theorem frame_setReg (s : State) (x : Reg) (b : Byte) : ChangesOnly (fun p => p = .reg x) s (s.setReg x b) := by
  constructor <;> intros <;> simp_all [State.reg_setReg]

theorem frame_setRegFlag (s : State) (x : Reg) (b : Byte) (f : Bool) :
    ChangesOnly (fun p => p = .reg x ∨ p = .reg Reg.vf) s (s.setRegFlag x b f) := by
  constructor <;> intros <;> simp_all [State.reg_setRegFlag]

theorem frame_setPc (s : State) (w : Word) : ChangesOnly (fun p => p = .pc) s (s.setPc w) := by
  constructor <;> intros <;> simp_all

theorem frame_skipIf (s : State) (c : Bool) : ChangesOnly (fun p => p = .pc) s (s.skipIf c) := by
  constructor <;> intros <;> simp_all

theorem frame_setI (s : State) (w : Word) : ChangesOnly (fun p => p = .index) s (s.setI w) := by
  constructor <;> intros <;> simp_all

theorem frame_setDt (s : State) (b : Byte) : ChangesOnly (fun p => p = .delay) s (s.setDt b) := by
  constructor <;> intros <;> simp_all

theorem frame_setSt (s : State) (b : Byte) : ChangesOnly (fun p => p = .sound) s (s.setSt b) := by
  constructor <;> intros <;> simp_all

theorem frame_setKey (s : State) (k : Option (Fin 16)) : ChangesOnly (fun p => p = .key) s (s.setKey k) := by
  constructor <;> intros <;> simp_all

theorem frame_storeBytes (s : State) (a : Nat) (bs : List Byte) :
    ChangesOnly (fun p => ∃ k, k < bs.length ∧ p = .byte (a + k)) s (s.storeBytes a bs) := by
  constructor <;> intros <;> try simp_all
  rename_i b h
  apply State.byte_storeBytes_outside
  by_contra hc
  exact h (b - a) (by omega) (by omega)

/-! ## The meanings with more than one outcome -/

/-- `BlockInRange` in the words of the statements. -/
theorem blockInRange_iff (n : Nat) (s : State) : s.BlockInRange n ↔ (n = 0 ∨ s.i.toNat + n - 1 < 4096) := by
  unfold State.BlockInRange Config.memSize
  omega

/-- A guarded access that completes gives the state it guards. -/
theorem guardBlock_next_eq {n : Nat} (h : guardBlock n s (.next u) = .next t) : t = u := by
  have := (guardBlock_next h).2
  cases this; rfl

/-- A guarded access completes, or it raises (R55). -/
theorem guardBlock_or (n : Nat) (s u : State) :
    guardBlock n s (.next u) = .next u ∨
      (0 < n ∧ 4096 ≤ s.i.toNat + n - 1 ∧
        guardBlock n s (.next u) = .fault (.raised (.addressOutOfRange (s.pc - 2) (max s.i.toNat 4096)))) := by
  by_cases h : s.BlockInRange n
  · exact .inl (guardBlock_in _ h)
  · have e := guardBlock_out (.next u) h
    rw [blockInRange_iff] at h
    exact .inr ⟨by omega, by omega, e⟩

theorem execCall_room (nnn : BitVec 12) (s : State) (h : s.sp.val < 16) :
    execCall nnn s = .next { s with
      stack := s.stack.set s.sp.val s.pc h, sp := ⟨s.sp.val + 1, Nat.succ_lt_succ h⟩, pc := zext16 nnn } := by
  simp only [execCall, s.push_room s.pc h]; rfl

theorem execRet_some (s : State) (h : 0 < s.sp.val) :
    execRet s = .next { s with
      sp := ⟨s.sp.val - 1, by omega⟩,
      pc := s.stack[s.sp.val - 1]'(by have := s.sp.isLt; unfold Config.stackDepth at *; omega) } := by
  simp only [execRet, s.pop_some h]; rfl

/-- The one way a CALL completes (R131). -/
theorem execCall_next {nnn : BitVec 12} (h : execCall nnn s = .next t) :
    ∃ h : s.sp.val < 16, t = { s with
      stack := s.stack.set s.sp.val s.pc h, sp := ⟨s.sp.val + 1, Nat.succ_lt_succ h⟩, pc := zext16 nnn } := by
  by_cases h' : s.sp.val < 16
  · rw [execCall_room nnn s h'] at h; cases h; exact ⟨h', rfl⟩
  · have h16 : s.sp.val = 16 := by have := s.sp.isLt; unfold Config.stackDepth at *; omega
    simp [execCall, State.push_full _ _ h16, raise] at h

/-- The one way a RET completes (R132). -/
theorem execRet_next (h : execRet s = .next t) :
    ∃ h : 0 < s.sp.val, t = { s with
      sp := ⟨s.sp.val - 1, by omega⟩,
      pc := s.stack[s.sp.val - 1]'(by have := s.sp.isLt; unfold Config.stackDepth at *; omega) } := by
  by_cases h' : 0 < s.sp.val
  · rw [execRet_some s h'] at h; cases h; exact ⟨h', rfl⟩
  · simp [execRet, State.pop_empty s (by omega), raise] at h

/-- The two ways FX0A completes (R182). -/
theorem execLdVxK_next {x : Reg} (h : execLdVxK x s = .next t) :
    (s.key = none ∧ t = s.setPc (s.pc - 2)) ∨ ∃ k, s.key = some k ∧ t = s.setReg x (BitVec.ofNat 8 k.val) := by
  unfold execLdVxK at h
  split at h
  · cases h; exact .inl ⟨by assumption, rfl⟩
  · cases h; exact .inr ⟨_, by assumption, rfl⟩

/-- The byte FX55 leaves at I + k (R175). -/
theorem byte_storeRegs (x k : Reg) (s : State) (hk : k ≤ x) :
    (s.storeBytes s.i.toNat (regsUpTo x s)).byte (s.i.toNat + k.val) = s.reg k := by
  have hk' : k.val ≤ x.val := hk
  rw [State.byte_storeBytes_inside, getElem_regsUpTo]
  rw [length_regsUpTo]; omega

/-- Two states with one memory and one PC fetch alike (R71). -/
theorem fetch_congr (hm : t.mem = s.mem) (hp : t.pc = s.pc) : fetch t = fetch s := by
  unfold fetch State.byte
  rw [hm, hp]

/-- A step over a fetched word is the decoded instruction's (R82). -/
theorem step_of_fetch {w : Word} (hf : s.fault = none) (h : fetch s = .ok w) : step s = exec (decode w) s.advance := by
  unfold step
  rw [hf]
  simp only [h]

theorem run_succ_of (M : Host.Core) (k : Nat) {a b : M.State} (h : M.step a = .next b) : M.run (k + 1) a = M.run k b := by
  unfold Host.Core.run
  simp only [h]
  cases k <;> rfl

/-- `k + 1` steps are a step and `k` more. -/
theorem run_succ (k : Nat) (h : step s = .next t) :
    Host.Core.run Sys2Proof.core (k + 1) s = Host.Core.run Sys2Proof.core k t :=
  run_succ_of Sys2Proof.core k h

/-! ## The host's setKey and tick when they are enabled (R211, R213) -/

theorem hostOp_setKey_enabled (k : Option (Fin 16)) {σ : Session} (h : σ.st.fault = none) :
    hostOp (.setKey k) σ = some ({ σ with st := σ.st.setKey k }, .ok) := if_pos h

theorem hostOp_tick_enabled {σ : Session} (h : σ.st.fault = none) :
    hostOp .tick σ = some ({ σ with st := tickTimers σ.st }, .ok) := if_pos h

end Sys2Proof.Machine
end

