-- ==== Sys2Proof/Laws/HostOps.lean ====
section
/-! SUPPORT. Laws/HostOps.lean: what each host operation can do (60_exceptions.md R210), once. -/

namespace Sys2Proof.Machine

@[simp] theorem resetBlock_draws (s : State) : (resetBlock s).draws = s.draws := rfl
@[simp] theorem resetBlock_fault (s : State) : (resetBlock s).fault = none := rfl
@[simp] theorem resetBlock_pc (s : State) : (resetBlock s).pc = 0x200 := rfl
@[simp] theorem resetBlock_mem (s : State) : (resetBlock s).mem = [] := rfl

theorem reset_reg (x : Reg) : State.reset.reg x = 0 := by simp [State.reg, State.reset]
theorem resetBlock_reg (s : State) (x : Reg) : (resetBlock s).reg x = 0 := reset_reg x
theorem resetBlock_byte (s : State) (a : Nat) : (resetBlock s).byte a = initialByte a := rfl

/-- The step operation, of each answer of `step` (R82, R201). -/
theorem hostStep_next {σ : Session} {t : State} (h : step σ.st = .next t) :
    hostStep σ = some ({ σ with st := t, stepped := true }, .ok) := by
  unfold hostStep; rw [h]

theorem hostStep_raised {σ : Session} {r : FaultRecord} (h : step σ.st = .fault (.raised r)) :
    hostStep σ = some ({ σ with st := σ.st.latchFault r, stepped := true }, .fault r) := by
  unfold hostStep; rw [h]; rfl

/-- A faulted block has no step (R82). -/
theorem step_faulted {s : State} {r : FaultRecord} (h : s.fault = some r) : step s = .fault (.notEnabled r) := by
  unfold step; rw [h]

theorem hostStep_faulted {σ : Session} {r : FaultRecord} (h : σ.st.fault = some r) : hostStep σ = none := by
  unfold hostStep; rw [step_faulted h]

/-- Everything the step operation can answer. -/
theorem hostStep_inv {σ σ' : Session} {a : HostResult} (h : hostStep σ = some (σ', a)) :
    (∃ t, step σ.st = .next t ∧ σ' = { σ with st := t, stepped := true } ∧ a = .ok) ∨
    (∃ r, step σ.st = .fault (.raised r) ∧ σ' = { σ with st := σ.st.latchFault r, stepped := true } ∧ a = .fault r) := by
  unfold hostStep at h
  split at h
  · rename_i t ht
    cases h; exact .inl ⟨t, ht, rfl, rfl⟩
  · rename_i r hr
    cases h; exact .inr ⟨r, hr, rfl, rfl⟩
  · cases h
  · cases h

/-- Everything `load_program` can answer (R233). -/
theorem hostLoad_inv {bytes : List Byte} {σ σ' : Session} {a : HostResult} (h : hostLoad bytes σ = some (σ', a)) :
    σ.st.fault = none ∧ σ.stepped = false ∧ σ.loaded = false ∧
      ((3584 < bytes.length ∧ σ' = σ ∧ a = .romTooLarge bytes.length) ∨
       (bytes.length ≤ 3584 ∧ σ' = { σ with st := loadRom bytes σ.st, loaded := true } ∧ a = .ok)) := by
  unfold hostLoad Config.maxRom Config.memSize Config.romBase at h
  split_ifs at h with he hl
  · cases h; exact ⟨he.1, he.2.1, he.2.2, .inl ⟨hl, rfl, rfl⟩⟩
  · cases h; exact ⟨he.1, he.2.1, he.2.2, .inr ⟨by omega, rfl, rfl⟩⟩

/-- A run of operations, one operation at a time. -/
theorem runOps_cons {op : HostOp} {ops : List HostOp} {σ σ' : Session} :
    runOps (op :: ops) σ = some σ' ↔ ∃ σ₁ a, hostOp op σ = some (σ₁, a) ∧ runOps ops σ₁ = some σ' := by
  cases h : hostOp op σ with
  | none => simp [runOps, h]
  | some p => obtain ⟨σ₁, a⟩ := p; simp [runOps, h]

end Sys2Proof.Machine
end

