-- ==== Sys2Proof/Laws/PerInstr.lean ====
section
/-! SUPPORT. Laws/PerInstr.lean: the law EncodesInItsRow, one lemma per constructor of Instr: the encoder writes every
instruction inside its own row of spec/opcode_table.json. -/

namespace Sys2Proof.Laws.EncodesInItsRow

/-- The word of a well-formed instruction has its row's `match` under its row's `mask`. -/
def Statement (i : Instr) : Prop := i.wf = true → inRow (encode i) i.row = true

/-- The rows whose mask is F000, from the family nibble alone. -/
theorem of_F000 {w : Word} {f m : Nat} (hw : fieldF w = BitVec.ofNat 4 f) (hf : f < 16) (hm : m = f * 4096) :
    inRow w (BitVec.ofNat 16 m, 0xF000) = true := by
  have h := congrArg BitVec.toNat hw
  rw [toNat_fieldF, BitVec.toNat_ofNat, Nat.mod_eq_of_lt (by omega)] at h
  rw [inRow_F000, decide_eq_true_iff, BitVec.toNat_ofNat, Nat.mod_eq_of_lt (by omega)]
  omega

theorem of_F00F (x y : Reg) (n : BitVec 4) (m : Word) (hm : m.toNat = 0x8000 + n.toNat) :
    inRow (encRRN 0x8#4 x y n) (m, 0xF00F) = true := by
  have hx := x.isLt; have hy := y.isLt; have hn := n.isLt
  rw [inRow_F00F, decide_eq_true_iff, toNat_encRRN, hm]
  have h8 : (0x8#4).toNat = 8 := rfl
  omega

theorem of_F0FF (f : BitVec 4) (x : Reg) (nn : Byte) (m : Word) (hm : m.toNat = f.toNat * 4096 + nn.toNat) :
    inRow (encRI8 f x nn) (m, 0xF0FF) = true := by
  have hx := x.isLt; have hn := nn.isLt
  rw [inRow_F0FF, decide_eq_true_iff, toNat_encRI8, hm]
  omega

theorem cls : Statement .cls := fun _ => by decide
theorem ret : Statement .ret := fun _ => by decide
theorem jp (nnn : BitVec 12) : Statement (.jp nnn) := fun _ => of_F000 (fieldF_encA12 _ _) (by decide) rfl
theorem call (nnn : BitVec 12) : Statement (.call nnn) := fun _ => of_F000 (fieldF_encA12 _ _) (by decide) rfl
theorem seImm (x : Reg) (nn : Byte) : Statement (.seImm x nn) := fun _ => of_F000 (fieldF_encRI8 _ _ _) (by decide) rfl
theorem sneImm (x : Reg) (nn : Byte) : Statement (.sneImm x nn) := fun _ => of_F000 (fieldF_encRI8 _ _ _) (by decide) rfl
theorem seReg (x y : Reg) : Statement (.seReg x y) := fun _ => of_F000 (fieldF_encRRN _ _ _ _) (by decide) rfl
theorem ldImm (x : Reg) (nn : Byte) : Statement (.ldImm x nn) := fun _ => of_F000 (fieldF_encRI8 _ _ _) (by decide) rfl
theorem addImm (x : Reg) (nn : Byte) : Statement (.addImm x nn) := fun _ => of_F000 (fieldF_encRI8 _ _ _) (by decide) rfl
theorem ldReg (x y : Reg) : Statement (.ldReg x y) := fun _ => of_F00F x y _ _ rfl
theorem or (x y : Reg) : Statement (.or x y) := fun _ => of_F00F x y _ _ rfl
theorem and (x y : Reg) : Statement (.and x y) := fun _ => of_F00F x y _ _ rfl
theorem xor (x y : Reg) : Statement (.xor x y) := fun _ => of_F00F x y _ _ rfl
theorem addReg (x y : Reg) : Statement (.addReg x y) := fun _ => of_F00F x y _ _ rfl
theorem sub (x y : Reg) : Statement (.sub x y) := fun _ => of_F00F x y _ _ rfl
theorem shr (x y : Reg) : Statement (.shr x y) := fun _ => of_F00F x y _ _ rfl
theorem subn (x y : Reg) : Statement (.subn x y) := fun _ => of_F00F x y _ _ rfl
theorem shl (x y : Reg) : Statement (.shl x y) := fun _ => of_F00F x y _ _ rfl
theorem sneReg (x y : Reg) : Statement (.sneReg x y) := fun _ => of_F000 (fieldF_encRRN _ _ _ _) (by decide) rfl
theorem ldI (nnn : BitVec 12) : Statement (.ldI nnn) := fun _ => of_F000 (fieldF_encA12 _ _) (by decide) rfl
theorem jpV0 (nnn : BitVec 12) : Statement (.jpV0 nnn) := fun _ => of_F000 (fieldF_encA12 _ _) (by decide) rfl
theorem rnd (x : Reg) (nn : Byte) : Statement (.rnd x nn) := fun _ => of_F000 (fieldF_encRI8 _ _ _) (by decide) rfl
theorem drw (x y : Reg) (n : Fin 16) : Statement (.drw x y n) := fun _ => of_F000 (fieldF_encRRN _ _ _ _) (by decide) rfl
theorem skp (x : Reg) : Statement (.skp x) := fun _ => of_F0FF _ x _ _ rfl
theorem sknp (x : Reg) : Statement (.sknp x) := fun _ => of_F0FF _ x _ _ rfl
theorem ldVxDt (x : Reg) : Statement (.ldVxDt x) := fun _ => of_F0FF _ x _ _ rfl
theorem ldVxK (x : Reg) : Statement (.ldVxK x) := fun _ => of_F0FF _ x _ _ rfl
theorem ldDtVx (x : Reg) : Statement (.ldDtVx x) := fun _ => of_F0FF _ x _ _ rfl
theorem ldStVx (x : Reg) : Statement (.ldStVx x) := fun _ => of_F0FF _ x _ _ rfl
theorem addIVx (x : Reg) : Statement (.addIVx x) := fun _ => of_F0FF _ x _ _ rfl
theorem ldFVx (x : Reg) : Statement (.ldFVx x) := fun _ => of_F0FF _ x _ _ rfl
theorem ldBVx (x : Reg) : Statement (.ldBVx x) := fun _ => of_F0FF _ x _ _ rfl
theorem ldMemVx (x : Reg) : Statement (.ldMemVx x) := fun _ => of_F0FF _ x _ _ rfl
theorem ldVxMem (x : Reg) : Statement (.ldVxMem x) := fun _ => of_F0FF _ x _ _ rfl
theorem unknown (w : Word) : Statement (.unknown w) := fun _ => by simp [Instr.row, inRow]

end Sys2Proof.Laws.EncodesInItsRow
end

