-- ==== Sys2Proof/Tests/Slice0.lean ====
section
/-! SUPPORT. Tests/Slice0.lean: the model's own tests. Expected results are those of spec/95_test_vectors.md (T1 to T130, S1
to S9), each named by its number; decoded words are written out from spec/30_encoding.md R75 and R79. -/

namespace Sys2Proof.Tests

open Sys2Proof Sys2Proof.Machine

/-! ## Helpers -/

/-- The next state of an answer, if it is one. -/
def nextOf : Step → Option State
  | .next t => some t
  | .fault _ => none
  | .refused _ => none

/-- The fault of an answer, if it is one. -/
def faultOf : Step → Option Fault
  | .next _ => none
  | .fault f => some f
  | .refused _ => none

/-- The state after reset with some registers set. -/
def regs (l : List (Reg × Byte)) : State := l.foldl (fun s p => s.setReg p.1 p.2) State.reset

/-- One step of `s` over the word `w` placed at its PC. -/
def ran (w : Nat) (s : State) : Option State := nextOf (step (s.withFetchWord 16 w))

/-- The fault of that step. -/
def stopped (w : Nat) (s : State) : Option Fault := faultOf (step (s.withFetchWord 16 w))

/-- What that step leaves in one register, in VF and in PC. -/
def xfp (w : Nat) (s : State) (x : Reg) : Option (Byte × Byte × Word) :=
  (ran w s).map fun t => (t.reg x, t.reg Reg.vf, t.pc)

/-- What that step leaves in PC. -/
def pcAfter (w : Nat) (s : State) : Option Word := (ran w s).map State.pc

/-! ## Well-formedness: the one check of WellFormed.lean, and terms that it refuses, one for each family of R80 -/

theorem test_wf_refuses_cls_word : (Instr.unknown 0x00E0).wf = false := by decide
theorem test_wf_refuses_ret_word : (Instr.unknown 0x00EE).wf = false := by decide
theorem test_wf_refuses_jump_word : (Instr.unknown 0x1234).wf = false := by decide
theorem test_wf_refuses_family_8_word : (Instr.unknown 0x812E).wf = false := by decide
theorem test_wf_refuses_family_e_word : (Instr.unknown 0xE39E).wf = false := by decide
theorem test_wf_refuses_family_f_word : (Instr.unknown 0xF365).wf = false := by decide
theorem test_wf_accepts_unknown_words :
    (Instr.unknown 0x0123).wf = true ∧ (Instr.unknown 0x800F).wf = true ∧ (Instr.unknown 0xE09F).wf = true ∧
      (Instr.unknown 0xFF56).wf = true := by decide

/-! ## Decoding: words written out from R75 and R79 -/

theorem test_decode_cls : decode 0x00E0 = .cls := by decide
theorem test_decode_ret : decode 0x00EE = .ret := by decide
theorem test_decode_jp : decode 0x1ABC = .jp 0xABC := by decide
theorem test_decode_call : decode 0x2345 = .call 0x345 := by decide
theorem test_decode_se_imm : decode 0x3A12 = .seImm 0xA 0x12 := by decide
theorem test_decode_sne_imm : decode 0x4B13 = .sneImm 0xB 0x13 := by decide
theorem test_decode_se_reg : decode 0x5120 = .seReg 1 2 ∧ decode 0x512F = .seReg 1 2 := by decide
theorem test_decode_ld_imm : decode 0x65AB = .ldImm 5 0xAB := by decide
theorem test_decode_add_imm : decode 0x7F03 = .addImm 0xF 0x03 := by decide
theorem test_decode_ld_reg : decode 0x8120 = .ldReg 1 2 := by decide
theorem test_decode_or : decode 0x8341 = .or 3 4 := by decide
theorem test_decode_and : decode 0x8342 = .and 3 4 := by decide
theorem test_decode_xor : decode 0x8343 = .xor 3 4 := by decide
theorem test_decode_add_reg : decode 0x8344 = .addReg 3 4 := by decide
theorem test_decode_sub : decode 0x8345 = .sub 3 4 := by decide
theorem test_decode_shr : decode 0x8346 = .shr 3 4 := by decide
theorem test_decode_subn : decode 0x8347 = .subn 3 4 := by decide
theorem test_decode_shl : decode 0x834E = .shl 3 4 := by decide
theorem test_decode_sne_reg : decode 0x9CD0 = .sneReg 0xC 0xD ∧ decode 0x9CD7 = .sneReg 0xC 0xD := by decide
theorem test_decode_ld_i : decode 0xA123 = .ldI 0x123 := by decide
theorem test_decode_jp_v0 : decode 0xBFFF = .jpV0 0xFFF := by decide
theorem test_decode_rnd : decode 0xC3C4 = .rnd 3 0xC4 := by decide
theorem test_decode_drw : decode 0xD125 = .drw 1 2 5 := by decide
theorem test_decode_skp : decode 0xE39E = .skp 3 := by decide
theorem test_decode_sknp : decode 0xE4A1 = .sknp 4 := by decide
theorem test_decode_ld_vx_dt : decode 0xF307 = .ldVxDt 3 := by decide
theorem test_decode_ld_vx_k : decode 0xF40A = .ldVxK 4 := by decide
theorem test_decode_ld_dt_vx : decode 0xF515 = .ldDtVx 5 := by decide
theorem test_decode_ld_st_vx : decode 0xF618 = .ldStVx 6 := by decide
theorem test_decode_add_i_vx : decode 0xF71E = .addIVx 7 := by decide
theorem test_decode_ld_f_vx : decode 0xF829 = .ldFVx 8 := by decide
theorem test_decode_ld_b_vx : decode 0xF933 = .ldBVx 9 := by decide
theorem test_decode_ld_mem_vx : decode 0xFA55 = .ldMemVx 0xA := by decide
theorem test_decode_ld_vx_mem : decode 0xFB65 = .ldVxMem 0xB := by decide
theorem test_decode_unknown_0 :
    decode 0x0000 = .unknown 0x0000 ∧ decode 0x0123 = .unknown 0x0123 ∧ decode 0x01E0 = .unknown 0x01E0 := by decide
theorem test_decode_unknown_8ef :
    decode 0x8008 = .unknown 0x8008 ∧ decode 0xEFA0 = .unknown 0xEFA0 ∧ decode 0xF0FF = .unknown 0xF0FF := by decide

theorem test_encode_words :
    encode (.drw 1 2 5) = 0xD125 ∧ encode (.shl 3 4) = 0x834E ∧ encode (.seReg 1 2) = 0x5120 ∧
      encode (.jp 0xABC) = 0x1ABC ∧ encode (.ldVxK 4) = 0xF40A := by decide

/-- R52: the byte at the lower address is the high byte. -/
theorem test_decode_bytes_big_endian : decodeBytes [0x1A, 0xBC, 0x77] = .ok (.jp 0xABC, [0x77]) := by decide
theorem test_decode_bytes_truncated : decodeBytes [0x1A] = .error .truncated := by decide
theorem test_decode_table_word : decodeTableWord 16 0xD125 = some (.drw 1 2 5) := by decide

/-! ## Fetch (T1 to T9) -/

theorem test_t1_odd_pc : (ran 0x607B { State.reset with pc := 0x201 }).map (fun t => (t.reg 0, t.pc)) = some (0x7B, 0x203) := by
  decide
theorem test_t2_last_word : pcAfter 0x0000 { State.reset with pc := 0xFFE } = some 0x1000 := by decide
theorem test_t3_pc_fff :
    faultOf (step { State.reset with pc := 0xFFF }) = some (.raised (.addressOutOfRange 0xFFF 0x1000)) := by decide
theorem test_t5_pc_10fe :
    faultOf (step { State.reset with pc := 0x10FE }) = some (.raised (.addressOutOfRange 0x10FE 0x10FE)) := by decide
theorem test_t7_unknown : ran 0x8FFC State.reset = some ((State.reset.withFetchWord 16 0x8FFC).setPc 0x202) := by decide

/-! ## ALU (T10 to T44) -/

theorem test_t10_ld_imm : xfp 0x65AB State.reset 5 = some (0xAB, 0, 0x202) := by decide
theorem test_t11_add_imm_wraps : xfp 0x7001 (regs [(0, 0xFF)]) 0 = some (0, 0, 0x202) := by decide
theorem test_t13_add_imm_vf : xfp 0x7F03 (regs [(0xF, 0xFE)]) 0xF = some (1, 1, 0x202) := by decide
theorem test_t14_ld_reg : xfp 0x8120 (regs [(2, 0x33)]) 1 = some (0x33, 0, 0x202) := by decide
theorem test_t15_or : xfp 0x8011 (regs [(0, 0xF0), (1, 0x0F), (0xF, 1)]) 0 = some (0xFF, 1, 0x202) := by decide
theorem test_t16_and : xfp 0x8012 (regs [(0, 0xF0), (1, 0x0F), (0xF, 1)]) 0 = some (0x00, 1, 0x202) := by decide
theorem test_t17_xor : xfp 0x8013 (regs [(0, 0xFF), (1, 0x0F), (0xF, 1)]) 0 = some (0xF0, 1, 0x202) := by decide
theorem test_t19_add_reg_carry : xfp 0x8014 (regs [(0, 0xFF), (1, 1)]) 0 = some (0, 1, 0x202) := by decide
theorem test_t23_add_reg_into_vf : xfp 0x8F14 (regs [(0xF, 0x10), (1, 0xF5)]) 0xF = some (1, 1, 0x202) := by decide
theorem test_t26_sub_borrow : xfp 0x8015 (regs [(0, 3), (1, 5)]) 0 = some (0xFE, 0, 0x202) := by decide
theorem test_t27_sub_equal : xfp 0x8015 (regs [(0, 7), (1, 7)]) 0 = some (0, 1, 0x202) := by decide
theorem test_t30_shr_takes_vy : xfp 0x8016 (regs [(1, 5)]) 0 = some (2, 1, 0x202) := by decide
theorem test_t34_shr_into_vf : xfp 0x8F16 (regs [(1, 2)]) 0xF = some (0, 0, 0x202) := by decide
theorem test_t35_subn : xfp 0x8017 (regs [(0, 3), (1, 5)]) 0 = some (2, 1, 0x202) := by decide
theorem test_t36_subn_borrow : xfp 0x8017 (regs [(0, 5), (1, 3)]) 0 = some (0xFE, 0, 0x202) := by decide
theorem test_t38_shl : xfp 0x801E (regs [(1, 0x81)]) 0 = some (2, 1, 0x202) := by decide
theorem test_t40_shl_into_vf : xfp 0x8F1E (regs [(1, 0x7F)]) 0xF = some (0, 0, 0x202) := by decide
/-- T42, of the draw 0xA0: OR on this hardware, AND with the switch. -/
theorem test_t42_rnd_combines : rndCombine false 0xA0 0x0F = 0xAF ∧ rndCombine true 0xA0 0x0F = 0x00 := by decide
/-- T43: with the mask 0xFF the result is 0xFF, whatever the draw. -/
theorem test_t43_rnd_mask_ff : (ran 0xC0FF State.reset).map (fun t => (t.reg 0, t.pc, t.draws)) = some (0xFF, 0x202, 1) := by
  have h : Config.randomByte 0 ||| 0xFF#8 = 0xFF#8 := BitVec.or_allOnes
  show some (Config.randomByte 0 ||| 0xFF#8, (0x202 : Word), 1) = _
  rw [h]
  rfl

/-! ## Control flow (T45 to T69) -/

theorem test_t46_jp_odd : pcAfter 0x1201 State.reset = some 0x201 := by decide
theorem test_t48_self_jump : pcAfter 0x1200 State.reset = some 0x200 := by decide
theorem test_t50_call_last_slot :
    (ran 0x2300 { State.reset with pc := 0x300, sp := 15 }).map (fun t => (t.stack[15], t.sp, t.pc)) =
      some (0x302, 16, 0x300) := by decide
theorem test_t51_call_full :
    stopped 0x2300 { State.reset with pc := 0x300, sp := 16 } = some (.raised (.stackOverflow 0x300)) := by decide
theorem test_t52_ret :
    (ran 0x00EE { State.reset with sp := 1, stack := State.reset.stack.set 0 0x232 }).map (fun t => (t.stack[0], t.sp, t.pc)) =
      some (0x232, 0, 0x232) := by decide
theorem test_t53_ret_empty : stopped 0x00EE State.reset = some (.raised (.stackUnderflow 0x200)) := by decide
theorem test_t54_se_imm : pcAfter 0x3012 (regs [(0, 0x12)]) = some 0x204 := by decide
theorem test_t55_se_imm_no_skip : pcAfter 0x3013 (regs [(0, 0x12)]) = some 0x202 := by decide
theorem test_t56_sne_imm_no_skip : pcAfter 0x4012 (regs [(0, 0x12)]) = some 0x202 := by decide
theorem test_t57_sne_imm : pcAfter 0x4013 (regs [(0, 0x12)]) = some 0x204 := by decide
theorem test_t59_se_reg_no_skip : pcAfter 0x5010 (regs [(0, 0x33), (1, 0x34)]) = some 0x202 := by decide
theorem test_t60_se_reg_n_ignored : pcAfter 0x5011 (regs [(0, 0x33), (1, 0x33)]) = some 0x204 := by decide
theorem test_t63_sne_reg_no_skip : pcAfter 0x9010 (regs [(0, 0x33), (1, 0x33)]) = some 0x202 := by decide
theorem test_t65_sne_reg_n_ignored : pcAfter 0x901F (regs [(0, 0x34), (1, 0x33)]) = some 0x204 := by decide
theorem test_t66_skip_to_the_top : pcAfter 0x3000 { State.reset with pc := 0xFFC } = some 0x1000 := by decide
theorem test_t67_jp_v0 : pcAfter 0xB200 (regs [(0, 0x10)]) = some 0x210 := by decide
theorem test_t69_jp_v0_unmasked : pcAfter 0xBFFF (regs [(0, 0xFF)]) = some 0x10FE := by decide

/-! ## Display (T70 to T83) -/

/-- The sprite F0 90 at 0x300, drawn by V0 = 62, V1 = 1 (T72). -/
def clippedSprite : State :=
  { regs [(0, 62), (1, 1), (0xF, 0x55)] with i := 0x300, mem := [(0x300, 0xF0), (0x301, 0x90)] }

/-- The cell (5, 5) lit and the sprite 0x80 at 0x300, drawn by V0 = V1 = 5 (T77). -/
def litCell : State :=
  { regs [(0, 5), (1, 5)] with
    i := 0x300, mem := [(0x300, 0x80)], display := State.reset.display.xorCell 5 5 true }

theorem test_t70_cls :
    (ran 0x00E0 { State.reset with display := (State.reset.display.xorCell 0 0 true).xorCell 63 31 true }).map
      (fun t => (t.display.cell 0 0, t.display.cell 63 31, t.pc)) = some (false, false, 0x202) := by decide
theorem test_t72_drw_clips :
    (ran 0xD012 clippedSprite).map (fun t => (t.display.cell 62 1, t.display.cell 63 1, t.display.cell 0 1,
      t.display.cell 62 2, t.display.cell 63 2, t.reg Reg.vf)) = some (true, true, false, true, false, 0x55) := by decide
theorem test_t77_drw_sets_no_flag :
    (ran 0xD011 litCell).map (fun t => (t.display.cell 5 5, t.reg Reg.vf)) = some (false, 0) := by decide
theorem test_t78_drw_no_rows : pcAfter 0xD010 { State.reset with i := 0xFFFF } = some 0x202 := by decide
theorem test_t79_drw_out_of_range :
    stopped 0xD013 { State.reset with i := 0xFFE } = some (.raised (.addressOutOfRange 0x200 0x1000)) := by decide
theorem test_t82_collision_switch :
    (drawSprite true 0 1 1 litCell).display.cell 5 5 = false ∧ (drawSprite true 0 1 1 litCell).reg Reg.vf = 1 := by decide
theorem test_t83_no_collision_switch : (drawSprite true 0 1 2 clippedSprite).reg Reg.vf = 0 := by decide

/-! ## Index, memory, timers and keys (T84 to T120) -/

theorem test_t85_ld_i : (ran 0xAFFF State.reset).map (fun t => (t.i, t.pc)) = some (0xFFF, 0x202) := by decide
theorem test_t87_add_i_no_flag :
    (ran 0xF01E { regs [(0, 1)] with i := 0xFFF }).map (fun t => (t.i, t.reg Reg.vf)) = some (0x1000, 0) := by decide
theorem test_t88_add_i_wraps : (ran 0xF01E { regs [(0, 2)] with i := 0xFFFF }).map State.i = some 1 := by decide
/-- T91: only the low nibble of VX selects the glyph. -/
theorem test_t91_glyph_low_nibble :
    (ran 0xF029 (regs [(0, 0x1A)])).map State.i = some (BitVec.ofNat 16 (Config.fontBase.val + 50)) := rfl
theorem test_t96_bcd :
    (ran 0xF033 { regs [(0, 157)] with i := 0x300 }).map (fun t => (t.byte 0x300, t.byte 0x301, t.byte 0x302)) =
      some (1, 5, 7) := by decide
theorem test_t99_bcd_out_of_range :
    stopped 0xF033 { regs [(0, 1)] with i := 0xFFE } = some (.raised (.addressOutOfRange 0x200 0x1000)) := by decide
theorem test_t100_store :
    (ran 0xF255 { regs [(0, 1), (1, 2), (2, 3), (3, 4)] with i := 0x300 }).map
      (fun t => (t.byte 0x300, t.byte 0x301, t.byte 0x302, t.byte 0x303, t.i)) = some (1, 2, 3, 0, 0x300) := by decide
theorem test_t102_store_out_of_range :
    stopped 0xF155 { regs [(0, 0xAA), (1, 0xBB)] with i := 0xFFF } = some (.raised (.addressOutOfRange 0x200 0x1000)) := by
  decide
theorem test_t105_load :
    (ran 0xF265 { regs [(3, 9)] with i := 0x300, mem := [(0x300, 1), (0x301, 5), (0x302, 7), (0x303, 8)] }).map
      (fun t => (t.reg 0, t.reg 1, t.reg 2, t.reg 3, t.i)) = some (1, 5, 7, 9, 0x300) := by decide
theorem test_t108_load_out_of_range :
    stopped 0xFF65 { State.reset with i := 0xFF1 } = some (.raised (.addressOutOfRange 0x200 0x1000)) := by decide
theorem test_t109_ld_vx_dt : (ran 0xF307 { State.reset with dt := 0x2A, st := 1 }).map (fun t => t.reg 3) = some 0x2A := by decide
theorem test_t110_ld_dt_vx : (ran 0xF315 (regs [(3, 0x3C)])).map (fun t => (t.dt, t.st)) = some (0x3C, 0) := by decide
theorem test_t111_ld_st_vx : (ran 0xF318 (regs [(3, 5)])).map (fun t => (t.dt, t.st)) = some (0, 5) := by decide
theorem test_t112_skp_no_key : pcAfter 0xE09E (regs [(0, 5)]) = some 0x202 := by decide
theorem test_t114_skp_full_compare : pcAfter 0xE09E { regs [(0, 0x15)] with key := some 5 } = some 0x202 := by decide
theorem test_t115_sknp_no_key : pcAfter 0xE0A1 (regs [(0, 5)]) = some 0x204 := by decide
theorem test_t116_sknp_key : pcAfter 0xE0A1 { regs [(0, 5)] with key := some 5 } = some 0x202 := by decide
theorem test_t118_key_wait : ran 0xF00A State.reset = some (State.reset.withFetchWord 16 0xF00A) := by decide
theorem test_t119_key_taken :
    (ran 0xF00A { State.reset with key := some 0xA }).map (fun t => (t.reg 0, t.pc, t.key)) =
      some (0x0A, 0x202, some 0xA) := by decide

/-! ## Host operations (T121 to T130, S7) -/

theorem test_t121_tick :
    (hostOp .tick { Session.initial with st := { State.reset with st := 3 } }).map (fun p => (p.1.st.dt, p.1.st.st)) =
      some (0, 2) := by decide
theorem test_t124_set_key :
    (hostOp (.setKey none) { Session.initial with st := { State.reset with key := some 3 } }).map (fun p => p.1.st.key) =
      some none := by decide
theorem test_t126_rom_too_large :
    hostOp (.loadProgram (List.replicate 3585 1)) Session.initial = some (Session.initial, .romTooLarge 3585) := by
  have h : Config.maxRom < (List.replicate 3585 (1 : Byte)).length := by rw [List.length_replicate]; decide
  show hostLoad _ _ = _
  rw [hostLoad, if_pos ⟨rfl, rfl, rfl⟩, if_pos h, List.length_replicate]
theorem test_t127_empty_rom :
    (hostOp (.loadProgram []) Session.initial).map (fun p => (p.1.st, p.2)) = some (State.reset, .ok) := by decide
theorem test_s7_rom :
    (runOps [.loadProgram [0x00, 0xE0, 0x60, 0x0A, 0x70, 0x05, 0x00, 0xEE], .step, .step, .step, .step]
      Session.initial).map (fun σ => (σ.st.reg 0, σ.st.pc, σ.st.sp, σ.st.fault)) =
      some (0x0F, 0x206, 0, some (.stackUnderflow 0x206)) := by decide
theorem test_no_load_after_a_step : hostOp (.loadProgram []) { Session.initial with stepped := true } = none := by decide
/-- 93_implementation_defined.md: load_program twice is not enabled. -/
theorem test_no_second_load : runOps [.loadProgram [0x12, 0x00], .tick, .loadProgram []] Session.initial = none := by decide
/-- ... until the next reset. -/
theorem test_load_after_reset :
    (runOps [.loadProgram [0x12, 0x00], .step, .reset, .loadProgram [0x13]] Session.initial).map
      (fun σ => (σ.st.byte 0x200, σ.st.byte 0x201)) = some (0x13, 0) := by decide
theorem test_t130_reset :
    (hostOp .reset { st := { State.reset with fault := some (.stackUnderflow 0x206), pc := 0x206 }, stepped := true, loaded := true }).map
      Prod.fst = some Session.initial := by decide

/-! ## Witnesses: for every statement with hypotheses, a state and operands that meet them, each clause at its boundary -/

/-- A state whose next word is `w`, at PC 0x200. -/
def at200 (w : Nat) (s : State) : State := { s with pc := 0x200, mem := [(0x200, highByte (BitVec.ofNat 16 w)), (0x201, lowByte (BitVec.ofNat 16 w))] }

theorem witness_DecodeOfEncodeIsTheInstruction :
    (Instr.unknown 0xFFFF).wf = true ∧ (Instr.drw 15 15 15).wf = true ∧ (Instr.jp 0xFFF).wf = true := by decide

theorem witness_DecodeAgreesWithTheOpcodeTable :
    ((∀ u, Instr.drw 1 2 5 ≠ .unknown u) ∧ inRow 0xDFFF (Instr.drw 1 2 5).row = true) ∧
      decode 0x8008 = .unknown 0x8008 := ⟨⟨(fun _ h => nomatch h), by decide⟩, by decide⟩

theorem witness_UnknownWordsAreNoOps :
    State.reset.fault = none ∧ fetch State.reset = .ok 0x0000 ∧ decode 0x0000 = .unknown 0x0000 :=
  ⟨rfl, rfl, by decide⟩

theorem witness_StepRunsTheDecodedInstruction :
    (at200 0xD125 State.reset).fault = none ∧ (at200 0xD125 State.reset).pc.toNat + 1 < 4096 ∧
      decodeBytes [(at200 0xD125 State.reset).byte 0x200, (at200 0xD125 State.reset).byte 0x201] = .ok (.drw 1 2 5, []) := by
  decide

theorem witness_StepRunsTheDecodedInstruction_at_the_top :
    State.fault { State.reset with pc := 0xFFE } = none ∧ (0xFFE : Word).toNat + 1 < 4096 ∧
      decodeBytes [State.byte { State.reset with pc := 0xFFE } 0xFFE, State.byte { State.reset with pc := 0xFFE } 0xFFF] =
        .ok (.unknown 0, []) := by decide

/-- The three clauses meet at PC = 0xFFE, 0xFFF and 0x1000 and share no PC. -/
theorem witness_FetchReadsBigEndianOrFaults :
    State.reset.fault = none ∧ (0xFFE : Word).toNat + 1 < 4096 ∧ ((0xFFF : Word).toNat = 4095 ∧ ¬ (0xFFF : Word).toNat + 1 < 4096) ∧
      (4096 ≤ (0x1000 : Word).toNat ∧ (0x1000 : Word).toNat ≠ 4095) := by decide

/-- An X other than 0xF, for the sum, the differences and the shifts; their other clauses have no hypothesis. -/
theorem witness_AddRegisterSumAndCarry : (0 : Reg) ≠ Reg.vf := by decide
theorem witness_SubtractionsAndNoBorrow : (14 : Reg) ≠ Reg.vf := by decide
theorem witness_ShiftsTakeTheSecondRegister : (7 : Reg) ≠ Reg.vf := by decide

/-- Room for one more entry at SP = 0 and at SP = 15; full at SP = 16. -/
theorem witness_CallPushesTheReturnAddress :
    State.reset.sp.val < 16 ∧ State.sp { State.reset with sp := 15 } = 15 ∧ (15 : Fin 17).val < 16 ∧
      State.sp { State.reset with sp := 16 } = 16 ∧ (16 : Fin 17).val = 16 := by decide

/-- An entry to pop at SP = 1 and at SP = 16; empty at SP = 0. -/
theorem witness_ReturnPopsTheStack :
    0 < (State.sp { State.reset with sp := 1 }).val ∧ 0 < (State.sp { State.reset with sp := 16 }).val ∧
      State.reset.sp.val = 0 := by decide

theorem witness_ReturnUndoesCall :
    ∃ s t u : State, fetch s = .ok 0x2300 ∧ decode 0x2300 = .call 0x300 ∧ step s = .next t ∧ u.fault = none ∧
      fetch u = .ok 0x00EE ∧ u.sp = t.sp ∧ u.stack = t.stack := by
  refine ⟨at200 0x2300 State.reset, _, at200 0x00EE { State.reset with sp := 1, stack := State.reset.stack.set 0 0x202 },
    rfl, by decide, rfl, rfl, rfl, rfl, rfl⟩

/-- No rows at I = 0xFFFF, a last row at address 0xFFF, and one row too many. -/
theorem witness_DrawXorsTheClippedSprite :
    ((0 : Fin 16).val = 0 ∨ (0xFFFF : Word).toNat + 0 - 1 < 4096) ∧ (0xFFF : Word).toNat + (1 : Fin 16).val - 1 < 4096 ∧
      (0 < (3 : Fin 16).val ∧ 4096 ≤ (0xFFE : Word).toNat + (3 : Fin 16).val - 1) ∧
      (0 < (1 : Fin 16).val ∧ 4096 ≤ (0x1000 : Word).toNat + (1 : Fin 16).val - 1) := by decide

theorem witness_DrawingTwiceRestoresTheBitmap :
    ∃ s t : State, exec (.drw 0 1 2) s = .next t ∧ t.display = t.display ∧ t.i = s.i ∧
      (t.reg 0).toNat % 64 = (s.reg 0).toNat % 64 ∧ (t.reg 1).toNat % 32 = (s.reg 1).toNat % 32 ∧
      ∀ r, r < 2 → t.byte (s.i.toNat + r) = s.byte (s.i.toNat + r) :=
  ⟨clippedSprite, _, rfl, rfl, rfl, rfl, rfl, fun _ _ => rfl⟩

/-- A lit cell under a sprite bit, and a sprite that meets no lit cell. -/
theorem witness_CollisionSwitchWritesVf :
    (∃ r c, r < (1 : Fin 16).val ∧ c < 8 ∧ litCell.display.cell (5 + c) (5 + r) = true ∧
        (litCell.byte (litCell.i.toNat + r)).getLsbD (7 - c) = true) ∧
      ¬ ∃ r c, r < (0 : Fin 16).val ∧ c < 8 ∧ litCell.display.cell (5 + c) (5 + r) = true ∧
        (litCell.byte (litCell.i.toNat + r)).getLsbD (7 - c) = true :=
  ⟨⟨0, 0, by decide⟩, by rintro ⟨r, c, h, -⟩; exact absurd h (Nat.not_lt_zero r)⟩

/-- Three bytes up to 0xFFF, and one past it; likewise X + 1 bytes of FX55 and FX65. -/
theorem witness_BcdStoresThreeDigits : (0xFFD : Word).toNat + 2 < 4096 ∧ 4096 ≤ (0xFFE : Word).toNat + 2 := by decide
theorem witness_StoreRegistersFromIndex :
    (0xFFF : Word).toNat + (0 : Reg).val < 4096 ∧ 4096 ≤ (0xFFF : Word).toNat + (1 : Reg).val ∧
      4096 ≤ (0x1000 : Word).toNat + (0 : Reg).val := by decide
theorem witness_LoadRegistersFromIndex :
    (0xFF0 : Word).toNat + (15 : Reg).val < 4096 ∧ 4096 ≤ (0xFF1 : Word).toNat + (15 : Reg).val := by decide

/-- Three registers to store at 0x300. -/
def toStore : State := { regs [(0, 1), (1, 2), (2, 3)] with i := 0x300 }

theorem witness_StoreThenLoadBringsRegistersBack :
    ∃ s t u : State, exec (.ldMemVx 2) s = .next t ∧ u.i = s.i ∧ ∀ a, u.byte a = t.byte a :=
  ⟨toStore, toStore.storeBytes 0x300 (regsUpTo 2 toStore), toStore.storeBytes 0x300 (regsUpTo 2 toStore), rfl, rfl,
    fun _ => rfl⟩

theorem witness_KeyWaitLeavesTheStateOrLoadsTheKey :
    ((at200 0xF30A State.reset).fault = none ∧ (at200 0xF30A State.reset).key = none ∧
      fetch (at200 0xF30A State.reset) = .ok (immWord 0xF (3 : Reg) 0x0A)) ∧
      State.key { State.reset with key := some 0 } = some 0 := ⟨⟨rfl, rfl, rfl⟩, rfl⟩

theorem witness_OnlyListedInstructionsWriteRegisters :
    (∃ s t : State, exec (.ldImm 3 7) s = .next t ∧ t.reg 3 ≠ s.reg 3) ∧
      ∃ s t : State, exec (.addReg 0 1) s = .next t :=
  ⟨⟨State.reset, _, rfl, by decide⟩, State.reset, _, rfl⟩

/-- Each component changes in some step. -/
theorem witness_OnlyListedInstructionsWriteEachComponent :
    (∃ t, exec (.ldI 5) State.reset = .next t ∧ t.i ≠ State.reset.i) ∧
    (∃ t, exec (.call 0x300) State.reset = .next t ∧ t.sp ≠ State.reset.sp ∧ t.stack ≠ State.reset.stack) ∧
    (∃ t, exec (.ldDtVx 0) (regs [(0, 1)]) = .next t ∧ t.dt ≠ (regs [(0, 1)]).dt) ∧
    (∃ t, exec (.ldStVx 0) (regs [(0, 1)]) = .next t ∧ t.st ≠ (regs [(0, 1)]).st) ∧
    (∃ t, exec .cls litCell = .next t ∧ t.display ≠ litCell.display) ∧
    (∃ t, exec (.ldMemVx 1) { regs [(1, 2)] with i := 0x300 } = .next t ∧ t.mem ≠ []) ∧
    (∃ t, exec (.rnd 0 0) State.reset = .next t ∧ t.draws ≠ State.reset.draws) := by
  refine ⟨⟨_, rfl, by decide⟩, ⟨_, rfl, by decide, by decide⟩, ⟨_, rfl, by decide⟩, ⟨_, rfl, by decide⟩, ⟨_, rfl, ?_⟩,
    ⟨_, rfl, by decide⟩, ⟨_, rfl, by decide⟩⟩
  intro h
  have e : Display.cell Display.clear 5 5 = litCell.display.cell 5 5 := congrArg (fun d => Display.cell d 5 5) h
  exact absurd e (by decide)

/-- Each way of stopping, beside the completions above. -/
theorem witness_NothingStopsButTheNamedChecks :
    State.reset.sp.val = 0 ∧ (State.sp { State.reset with sp := 16 }).val = 16 ∧
      (0 < dataBytes (.ldBVx 0) ∧ 4096 ≤ (0xFFE : Word).toNat + dataBytes (.ldBVx 0) - 1) := by decide

/-- The step of `s` over the word `w` completes, with the PC `p` after it. -/
def CompletesAt (w : Nat) (s : State) (p : Word) : Prop :=
  ∃ t, fetch (at200 w s) = .ok (BitVec.ofNat 16 w) ∧ step (at200 w s) = .next t ∧ t.pc = p

/-- One completed step for each arm, the skips with their condition holding and not (PC values by hand from R28). -/
theorem witness_PcAfterACompletedStep :
    CompletesAt 0x1300 State.reset 0x300 ∧ CompletesAt 0x2300 State.reset 0x300 ∧
    CompletesAt 0xBFFF (regs [(0, 0xFF)]) 0x10FE ∧
    CompletesAt 0x00EE { State.reset with sp := 1, stack := State.reset.stack.set 0 0x232 } 0x232 ∧
    (CompletesAt 0x3000 State.reset 0x204 ∧ CompletesAt 0x3001 State.reset 0x202) ∧
    (CompletesAt 0x4001 State.reset 0x204 ∧ CompletesAt 0x4000 State.reset 0x202) ∧
    (CompletesAt 0x5010 State.reset 0x204 ∧ CompletesAt 0x5010 (regs [(0, 1)]) 0x202) ∧
    (CompletesAt 0x9010 (regs [(0, 1)]) 0x204 ∧ CompletesAt 0x9010 State.reset 0x202) ∧
    (CompletesAt 0xE09E { State.reset with key := some 0 } 0x204 ∧ CompletesAt 0xE09E State.reset 0x202) ∧
    (CompletesAt 0xE0A1 State.reset 0x204 ∧ CompletesAt 0xE0A1 { State.reset with key := some 0 } 0x202) ∧
    (CompletesAt 0xF00A State.reset 0x200 ∧ CompletesAt 0xF00A { State.reset with key := some 0 } 0x202) ∧
    CompletesAt 0x6005 State.reset 0x202 := by
  refine ⟨?_, ?_, ?_, ?_, ⟨?_, ?_⟩, ⟨?_, ?_⟩, ⟨?_, ?_⟩, ⟨?_, ?_⟩, ⟨?_, ?_⟩, ⟨?_, ?_⟩, ⟨?_, ?_⟩, ?_⟩ <;>
    exact ⟨_, rfl, rfl, by decide⟩

theorem reset_inv : State.reset.Inv where
  mem := Memory.wf_nil
  pc := by decide
  slots := by decide

/-- A step from a state of the invariant, and one from the highest PC that fetches. -/
theorem witness_StepKeepsTheInvariant :
    (∃ s t : State, s.Inv ∧ step s = .next t) ∧
      ∃ s t : State, s.Inv ∧ s.pc.toNat = 0xFFE ∧ step s = .next t :=
  ⟨⟨State.reset, _, reset_inv, rfl⟩,
    { State.reset with pc := 0xFFE }, _, ⟨Memory.wf_nil, by decide, reset_inv.slots⟩, rfl, rfl⟩

/-- The operations of one iteration, from the block as it comes up. -/
theorem witness_HostOperationsKeepTheInvariant :
    Session.initial.Inv ∧ ∃ σ', runOps [.loadProgram [0x12, 0x00], .setKey (some 3), .tick, .step, .reset] Session.initial = some σ' :=
  ⟨⟨reset_inv, (fun _ h => nomatch h), (fun _ _ h => nomatch h)⟩, _, rfl⟩

/-- A step that raises, and a block with a fault latched. -/
theorem witness_FaultsArePreciseAndAbsorbing :
    step (at200 0x00EE State.reset) = .fault (.raised (.stackUnderflow 0x200)) ∧
      (State.reset.latchFault (.stackUnderflow 0x200)).fault = some (.stackUnderflow 0x200) := ⟨rfl, rfl⟩

/-- An enabled block, for the statements about tick and set_key. -/
theorem witness_TicksCountBothTimersDown : Session.initial.st.fault = none := rfl
theorem witness_SetKeyWritesOnlyTheLatch : Session.initial.st.fault = none := rfl

/-- Loads of 3584 and of 3585 bytes right after reset, a block that has stepped, and one that has loaded. -/
theorem witness_LoadProgramCopiesTheRom :
    Session.initial.st.fault = none ∧ Session.initial.stepped = false ∧ Session.initial.loaded = false ∧
      (List.replicate 3584 (1 : Byte)).length ≤ 3584 ∧
      3584 < (List.replicate 3585 (1 : Byte)).length ∧ Session.stepped { Session.initial with stepped := true } = true ∧
      Session.loaded { Session.initial with loaded := true } = true := by
  refine ⟨rfl, rfl, rfl, List.length_replicate.le, ?_, rfl, rfl⟩
  rw [List.length_replicate]
  decide

/-- The longest run over zero bytes: from reset to the top of memory. -/
theorem witness_ZeroBytesRunToTheTop :
    State.reset.fault = none ∧ State.reset.pc.toNat + 2 * 1792 ≤ 4096 ∧
      ∀ a, State.reset.pc.toNat ≤ a → a < State.reset.pc.toNat + 2 * 1792 → State.reset.byte a = 0 :=
  ⟨rfl, by decide, fun _ h _ => initialByte_program h⟩

theorem witness_SelfJumpLeavesTheStateUnchanged :
    (at200 0x1200 State.reset).fault = none ∧ AtEndOfRun (at200 0x1200 State.reset) := ⟨rfl, 0x200, rfl, rfl⟩

/-- A store over the word at PC: the bytes 12 34 at 0x200 are the next word. -/
theorem witness_NextFetchSeesStoredBytes :
    ∃ s t : State, (0 : Reg).val + 1 ≤ (1 : Reg).val ∧ exec (.ldMemVx 1) s = .next t ∧
      t.pc.toNat = s.i.toNat + (0 : Reg).val :=
  ⟨{ regs [(0, 0x12), (1, 0x34)] with i := 0x200 }, _, by decide, rfl, rfl⟩

/-- FX15 at 0x200 and FX07 at 0x202. -/
theorem witness_DelayWrittenIsReadOneLessNextIteration :
    ∃ σ : Session, σ.st.fault = none ∧ fetch σ.st = .ok (immWord 0xF (0 : Reg) 0x15) ∧
      fetch σ.st.advance = .ok (immWord 0xF (1 : Reg) 0x07) :=
  ⟨{ st := { State.reset with mem := [(0x200, 0xF0), (0x201, 0x15), (0x202, 0xF1), (0x203, 0x07)] }, stepped := false,
      loaded := false }, rfl, rfl, rfl⟩

theorem witness_KeyWaitEndsAtTheFirstKeyEvent :
    ∃ σ : Session, σ.st.fault = none ∧ fetch σ.st = .ok (immWord 0xF (3 : Reg) 0x0A) ∧ 0 < 2 :=
  ⟨{ st := at200 0xF30A State.reset, stepped := false, loaded := false }, rfl, rfl, by decide⟩

end Sys2Proof.Tests
end

section
/-! PROOF. CXNN (40_alu.md R112): decoding, the combination of the draw with NN, and the frame of a draw. -/

namespace Sys2Proof.Machine

/-- The word `C X N N` is RND. -/
theorem decode_immWord_rnd (x : Reg) (nn : Byte) : decode (immWord 0xC x nn.toNat) = .rnd x nn := by
  have h : immWord 0xC x nn.toNat = encRI8 0xC#4 x nn := (encRI8_eq_immWord 0xC#4 x nn).symm
  simp [h, decode]

@[simp] theorem rndCombine_off (r nn : Byte) : rndCombine false r nn = r ||| nn := rfl
@[simp] theorem rndCombine_on (r nn : Byte) : rndCombine true r nn = r &&& nn := rfl

/-- What RND leaves with the switch off, which is this hardware (R10). -/
theorem exec_rnd (x : Reg) (nn : Byte) (s : State) :
    exec (.rnd x nn) s = .next (s.takeDraw.setReg x (Config.randomByte s.draws ||| nn)) := rfl

/-- Every bit of the mask is set in a byte ORed with it. -/
theorem or_and_mask {w : Nat} (r m : BitVec w) : (r ||| m) &&& m = m := by
  ext i
  rw [BitVec.getElem_and, BitVec.getElem_or, Bool.and_eq_right_iff_imp, Bool.or_eq_true]
  exact Or.inr

theorem frame_takeDraw (s : State) : ChangesOnly (fun p => p = .draws) s s.takeDraw := by
  constructor <;> intros <;> simp_all

/-- A draw written to VX changes VX and the draw counter only. -/
theorem frame_takeDraw_setReg (s : State) (x : Reg) (b : Byte) :
    ChangesOnly (fun p => p = .reg x ∨ p = .draws) s (s.takeDraw.setReg x b) :=
  ((frame_takeDraw s).mono fun _ => .inr).trans ((frame_setReg s.takeDraw x b).mono fun _ => .inl)

/-- Settles O14: the one successor of RND is the draw written to VX, whose frame is the frames of its two updates. -/
theorem randomByteIsOredWithTheMask : Obligations.RandomByteIsOredWithTheMask := by
  intro x nn s
  refine ⟨decode_immWord_rnd x nn, ⟨_, exec_rnd x nn s, ?value, ?mask, ?counter, ?frame⟩, rfl, fun r => ?combination⟩
  case value => exact State.reg_setReg_same _ _ _
  case mask => rw [State.reg_setReg_same, or_and_mask]
  case counter => rw [State.setReg_draws, State.takeDraw_draws]
  case frame => exact frame_takeDraw_setReg s x _
  case combination => exact ⟨rndCombine_off r nn, rndCombine_on r nn⟩

end Sys2Proof.Machine
end

section
/-! PROOF. What an instruction can answer, once for all instructions: `Completion` lists the updates of those that
complete, `Answer` adds the stops; `exec_answer` is the only case split over the instructions. -/

namespace Sys2Proof.Machine

/-! ## The instructions that share an update -/

/-- The instructions that always write V[x] and nothing else of the state. -/
inductive SetsReg : Instr → Reg → Prop
  | ldImm {x nn} : SetsReg (.ldImm x nn) x
  | addImm {x nn} : SetsReg (.addImm x nn) x
  | ldReg {x y} : SetsReg (.ldReg x y) x
  | or {x y} : SetsReg (.or x y) x
  | and {x y} : SetsReg (.and x y) x
  | xor {x y} : SetsReg (.xor x y) x
  | ldVxDt {x} : SetsReg (.ldVxDt x) x

/-- The five flag writers of 10_state.md R25, which write V[x] and then VF. -/
inductive SetsRegFlag : Instr → Reg → Prop
  | addReg {x y} : SetsRegFlag (.addReg x y) x
  | sub {x y} : SetsRegFlag (.sub x y) x
  | shr {x y} : SetsRegFlag (.shr x y) x
  | subn {x y} : SetsRegFlag (.subn x y) x
  | shl {x y} : SetsRegFlag (.shl x y) x

/-- The six skips, each with its condition in the state. -/
inductive SkipsIf (s : State) : Instr → Bool → Prop
  | seImm {x nn} : SkipsIf s (.seImm x nn) (s.reg x == nn)
  | sneImm {x nn} : SkipsIf s (.sneImm x nn) (s.reg x != nn)
  | seReg {x y} : SkipsIf s (.seReg x y) (s.reg x == s.reg y)
  | sneReg {x y} : SkipsIf s (.sneReg x y) (s.reg x != s.reg y)
  | skp {x} : SkipsIf s (.skp x) (keyIs x s)
  | sknp {x} : SkipsIf s (.sknp x) (!keyIs x s)

theorem exec_setsRegFlag {i : Instr} {x : Reg} (hi : SetsRegFlag i x) (s : State) :
    ∃ b f, exec i s = .next (s.setRegFlag x b f) := by
  cases hi <;> exact ⟨_, _, rfl⟩

/-! ## The answers of an instruction -/

/-- The next state of each instruction that completes: an update of the state it runs on. -/
inductive Completion (s : State) : Instr → State → Prop
  | nop {w} : Completion s (.unknown w) s
  | reg {i x} (b : Byte) (hi : SetsReg i x) : Completion s i (s.setReg x b)
  | regFlag {i x} (b : Byte) (f : Bool) (hi : SetsRegFlag i x) : Completion s i (s.setRegFlag x b f)
  | draw {x nn} (b : Byte) : Completion s (.rnd x nn) (s.takeDraw.setReg x b)
  | loadRegs {x} : Completion s (.ldVxMem x) (s.loadRegs x)
  | key {x k} (hk : s.key = some k) : Completion s (.ldVxK x) (s.setReg x (BitVec.ofNat 8 k.val))
  | keyWait {x} (hk : s.key = none) : Completion s (.ldVxK x) (s.setPc (s.pc - 2))
  | skip {i c} (hi : SkipsIf s i c) : Completion s i (s.skipIf c)
  | jump {nnn} : Completion s (.jp nnn) (s.setPc (zext16 nnn))
  | jumpV0 {nnn} : Completion s (.jpV0 nnn) (s.setPc (jumpV0Target nnn s))
  | call {nnn} (h : s.sp.val < 16) : Completion s (.call nnn) { s with
      stack := s.stack.set s.sp.val s.pc h, sp := ⟨s.sp.val + 1, Nat.succ_lt_succ h⟩, pc := zext16 nnn }
  | ret (h : 0 < s.sp.val) : Completion s .ret { s with
      sp := ⟨s.sp.val - 1, by omega⟩,
      pc := s.stack[s.sp.val - 1]'(by have := s.sp.isLt; unfold Config.stackDepth at *; omega) }
  | index {i} (w : Word) (hi : (∃ nnn, i = .ldI nnn) ∨ ∃ x, i = .addIVx x ∨ i = .ldFVx x) : Completion s i (s.setI w)
  | delay {x} : Completion s (.ldDtVx x) (s.setDt (s.reg x))
  | sound {x} : Completion s (.ldStVx x) (s.setSt (s.reg x))
  | display {i} (d : Display) (hi : i = .cls ∨ ∃ x y n, i = .drw x y n) : Completion s i (s.setDisplay d)
  | store {i} (bs : List Byte) (hi : ∃ x, i = .ldBVx x ∨ i = .ldMemVx x)
      (hin : s.i.toNat + bs.length ≤ Config.memSize) : Completion s i (s.storeBytes s.i.toNat bs)

/-- A record of a fault at `pc`: it names `pc`, and an address it carries is outside memory (60_exceptions.md R200). -/
structure FaultRecord.RaisedAt (r : FaultRecord) (pc : Word) : Prop where
  pc_eq : r.pc = pc
  addr_out : ∀ a, r.addr = some a → Config.memSize ≤ a

/-- What an instruction can answer: a completion, or a fault raised at the instruction's own address. -/
inductive Answer (s : State) (i : Instr) : Step → Prop
  | next {t} (h : Completion s i t) : Answer s i (.next t)
  | raised {r : FaultRecord} (h : r.RaisedAt s.pcCur) : Answer s i (raise r)

theorem raisedAt_addressOutOfRange {pc : Word} {a : Nat} (h : Config.memSize ≤ a) :
    (FaultRecord.addressOutOfRange pc a).RaisedAt pc where
  pc_eq := rfl
  addr_out b hb := by cases hb; exact h

theorem raisedAt_stackOverflow (pc : Word) : (FaultRecord.stackOverflow pc).RaisedAt pc := ⟨rfl, fun _ h => nomatch h⟩

theorem raisedAt_stackUnderflow (pc : Word) : (FaultRecord.stackUnderflow pc).RaisedAt pc := ⟨rfl, fun _ h => nomatch h⟩

/-- A guarded access (20_memory.md R55) answers its completion, whose range has then been checked, or raises. -/
theorem answer_guardBlock {s t : State} {i : Instr} {n : Nat} (h : s.BlockInRange n → Completion s i t) :
    Answer s i (guardBlock n s (.next t)) := by
  by_cases hr : s.BlockInRange n
  · rw [guardBlock_in _ hr]; exact .next (h hr)
  · rw [guardBlock_out _ hr]; exact .raised (raisedAt_addressOutOfRange (le_max_right _ _))

/-- A store of as many bytes as its range check covers ends inside memory. -/
theorem blockInRange_store {s : State} {n : Nat} (hn : 0 < n) (h : s.BlockInRange n) :
    s.i.toNat + n ≤ Config.memSize := by
  unfold State.BlockInRange at h; omega

theorem answer_call (nnn : BitVec 12) (s : State) : Answer s (.call nnn) (execCall nnn s) := by
  by_cases h : s.sp.val < 16
  · rw [execCall_room nnn s h]; exact .next (.call h)
  · have hfull : s.sp.val = 16 := Nat.le_antisymm (Nat.le_of_lt_succ s.sp.isLt) (Nat.not_lt.1 h)
    rw [execCall, State.push_full s _ hfull]
    exact .raised (raisedAt_stackOverflow _)

theorem answer_ret (s : State) : Answer s .ret (execRet s) := by
  by_cases h : 0 < s.sp.val
  · rw [execRet_some s h]; exact .next (.ret h)
  · rw [execRet, State.pop_empty s (by omega)]
    exact .raised (raisedAt_stackUnderflow _)

theorem answer_ldVxK (x : Reg) (s : State) : Answer s (.ldVxK x) (execLdVxK x s) := by
  unfold execLdVxK
  split
  case h_1 hk => exact .next (.keyWait hk)
  case h_2 k hk => exact .next (.key hk)

/-- Everything an instruction can answer. -/
theorem exec_answer (i : Instr) (s : State) : Answer s i (exec i s) := by
  cases i with
  | cls => exact .next (.display _ (.inl rfl))
  | ret => exact answer_ret s
  | jp nnn => exact .next .jump
  | call nnn => exact answer_call nnn s
  | seImm x nn => exact .next (.skip .seImm)
  | sneImm x nn => exact .next (.skip .sneImm)
  | seReg x y => exact .next (.skip .seReg)
  | ldImm x nn => exact .next (.reg _ .ldImm)
  | addImm x nn => exact .next (.reg _ .addImm)
  | ldReg x y => exact .next (.reg _ .ldReg)
  | or x y => exact .next (.reg _ .or)
  | and x y => exact .next (.reg _ .and)
  | xor x y => exact .next (.reg _ .xor)
  | addReg x y => exact .next (.regFlag _ _ .addReg)
  | sub x y => exact .next (.regFlag _ _ .sub)
  | shr x y => exact .next (.regFlag _ _ .shr)
  | subn x y => exact .next (.regFlag _ _ .subn)
  | shl x y => exact .next (.regFlag _ _ .shl)
  | sneReg x y => exact .next (.skip .sneReg)
  | ldI nnn => exact .next (.index _ (.inl ⟨nnn, rfl⟩))
  | jpV0 nnn => exact .next .jumpV0
  | rnd x nn => exact .next (.draw _)
  | drw x y n => exact answer_guardBlock fun _ => .display _ (.inr ⟨x, y, n, rfl⟩)
  | skp x => exact .next (.skip .skp)
  | sknp x => exact .next (.skip .sknp)
  | ldVxDt x => exact .next (.reg _ .ldVxDt)
  | ldVxK x => exact answer_ldVxK x s
  | ldDtVx x => exact .next .delay
  | ldStVx x => exact .next .sound
  | addIVx x => exact .next (.index _ (.inr ⟨x, .inl rfl⟩))
  | ldFVx x => exact .next (.index _ (.inr ⟨x, .inr rfl⟩))
  | ldBVx x => exact answer_guardBlock fun hr => .store _ ⟨x, .inl rfl⟩ (blockInRange_store (Nat.succ_pos 2) hr)
  | ldMemVx x =>
    refine answer_guardBlock fun hr => .store _ ⟨x, .inr rfl⟩ ?_
    rw [length_regsUpTo]
    exact blockInRange_store (Nat.succ_pos _) hr
  | ldVxMem x => exact answer_guardBlock fun _ => .loadRegs
  | unknown w => exact .next .nop

/-- An instruction that answers a next state made one of the listed updates. -/
theorem exec_next {i : Instr} {s t : State} (h : exec i s = .next t) : Completion s i t := by
  have ha := exec_answer i s
  rw [h] at ha
  cases ha with
  | next hc => exact hc

/-- A fault that an instruction raises is precise: it names the instruction's own address. -/
theorem exec_raised {i : Instr} {s : State} {r : FaultRecord} (h : exec i s = .fault (.raised r)) :
    r.RaisedAt s.pcCur := by
  have ha := exec_answer i s
  rw [h] at ha
  cases ha with
  | raised hr => exact hr

/-- A step that completes is the completion of the fetched instruction on the state that fetch leaves. -/
theorem step_completion {s t : State} (h : step s = .next t) :
    s.fault = none ∧ s.pc.toNat + 1 < 4096 ∧ ∃ i, Completion s.advance i t := by
  obtain ⟨hf, hp, he⟩ := step_next h
  exact ⟨hf, hp, _, exec_next he⟩

/-- A failed fetch names PC and the lowest byte outside memory (30_encoding.md R71). -/
theorem fetch_raised {s : State} {r : FaultRecord} (h : fetch s = .error r) : r.RaisedAt s.pc := by
  unfold fetch at h
  split_ifs at h with h1 h2
  · cases h; exact raisedAt_addressOutOfRange h1
  · cases h; exact raisedAt_addressOutOfRange h2

/-- A fault that a step raises, in fetch or in the instruction, names the PC from before the step (R200). -/
theorem step_raised {s : State} {r : FaultRecord} (h : step s = .fault (.raised r)) : r.RaisedAt s.pc := by
  unfold step at h
  split at h
  case h_1 => cases h
  case h_2 =>
    split at h
    case h_1 hw => cases h; exact fetch_raised hw
    case h_2 => rw [← State.pcCur_advance s]; exact exec_raised h

end Sys2Proof.Machine
end

section
/-! PROOF. The invariant of the state and of the block: which updates keep it, every step, every host operation. -/

namespace Sys2Proof.Machine

/-- The invariant speaks of memory, PC and the stack only. -/
theorem State.Inv.of_eq {s t : State} (h : s.Inv) (hm : t.mem = s.mem) (hp : t.pc = s.pc) (hs : t.stack = s.stack) :
    t.Inv where
  mem := hm ▸ h.mem
  pc := hp ▸ h.pc
  slots := hs ▸ h.slots

/-- A write of PC keeps the invariant when the target is in its bound. -/
theorem State.Inv.setPc {s : State} (h : s.Inv) {w : Word} (hw : w.toNat ≤ 0x10FE) : (s.setPc w).Inv where
  mem := h.mem
  pc := hw
  slots := h.slots

/-- A store that ends inside memory keeps the invariant. -/
theorem State.Inv.storeBytes {s : State} (h : s.Inv) {a : Nat} {bs : List Byte}
    (hin : a + bs.length ≤ Config.memSize) : (s.storeBytes a bs).Inv where
  mem := Memory.wf_storeBytes bs h.mem a hin
  pc := h.pc
  slots := h.slots

theorem toNat_zext16 (nnn : BitVec 12) : (zext16 nnn).toNat = nnn.toNat := by
  have := nnn.isLt
  rw [zext16, BitVec.toNat_setWidth, Nat.mod_eq_of_lt (by omega)]

/-- The sum of BNNN does not wrap (41_control_flow.md R138). -/
theorem toNat_jumpV0Target (nnn : BitVec 12) (s : State) :
    (jumpV0Target nnn s).toNat = nnn.toNat + (s.reg 0).toNat := by
  have := nnn.isLt
  have := (s.reg 0).isLt
  rw [jumpV0Target, BitVec.toNat_add, toNat_zext16, BitVec.toNat_setWidth]
  omega

/-- A jump target fits the bound on PC (10_state.md R30). -/
theorem toNat_zext16_le (nnn : BitVec 12) : (zext16 nnn).toNat ≤ 0xFFF := by
  rw [toNat_zext16]; exact Nat.le_of_lt_succ nnn.isLt

theorem toNat_jumpV0Target_le (nnn : BitVec 12) (s : State) : (jumpV0Target nnn s).toNat ≤ 0x10FE := by
  have := nnn.isLt
  have := (s.reg 0).isLt
  rw [toNat_jumpV0Target]
  omega

/-- A CALL keeps the invariant: the pushed PC is one that fetch leaves (30_encoding.md R72). -/
theorem inv_call {s : State} (h : s.Inv) (hpc : s.pc.toNat ≤ 0x1000) (nnn : BitVec 12) (hsp : s.sp.val < 16) :
    State.Inv { s with stack := s.stack.set s.sp.val s.pc hsp, sp := ⟨s.sp.val + 1, Nat.succ_lt_succ hsp⟩,
                       pc := zext16 nnn } where
  mem := h.mem
  pc := (toNat_zext16_le nnn).trans (by decide)
  slots k := by
    rw [Vector.getElem_set]
    split
    · exact hpc
    · exact h.slots k

/-- Every completion from a PC that fetch leaves keeps the invariant. -/
theorem Completion.inv {s t : State} {i : Instr} (hc : Completion s i t) (h : s.Inv) (hlo : 2 ≤ s.pc.toNat)
    (hhi : s.pc.toNat ≤ 0x1000) : t.Inv := by
  cases hc with
  | nop => exact h
  | reg | regFlag | draw | loadRegs | key | index | delay | sound | display => exact h.of_eq rfl rfl rfl
  | keyWait => exact h.setPc (by bv_omega)
  | @skip _ c hi =>
    cases c with
    | false => exact h
    | true => exact h.setPc (by bv_omega)
  | jump => exact h.setPc ((toNat_zext16_le _).trans (by decide))
  | jumpV0 => exact h.setPc (toNat_jumpV0Target_le _ _)
  | call hsp => exact inv_call h hhi _ hsp
  | ret hsp =>
    have hslot := h.slots ⟨s.sp.val - 1, by have := s.sp.isLt; unfold Config.stackDepth at *; omega⟩
    exact ⟨h.mem, hslot.trans (by decide), h.slots⟩
  | store bs _ hin => exact h.storeBytes hin

/-- No instruction writes the fault latch. -/
theorem Completion.fault_eq {s t : State} {i : Instr} (hc : Completion s i t) : t.fault = s.fault := by
  cases hc with
  | skip => exact State.skipIf_fault _ _
  | _ => rfl

/-- Settles O38: fetch leaves a PC from 2 to 0x1000, from which every completion keeps the invariant. -/
theorem stepKeepsTheInvariant : Obligations.StepKeepsTheInvariant := by
  intro s t hinv hstep
  obtain ⟨hf, hp, i, hc⟩ := step_completion hstep
  have hpc : s.advance.pc.toNat = s.pc.toNat + 2 := s.advance_toNat hp
  have hadv : s.advance.Inv := hinv.setPc (by rw [s.advance_toNat hp]; omega)
  exact ⟨hc.inv hadv (by omega) (by omega), hc.fault_eq.trans hf⟩

/-! ## The block -/

theorem resetBlock_inv (s : State) : (resetBlock s).Inv where
  mem := Memory.wf_nil
  pc := by rw [resetBlock_pc]; decide
  slots k := by simp [resetBlock, State.reset]

/-- A block with no fault latched owes the invariant of its state only. -/
theorem Session.Inv.of_unfaulted {σ : Session} (h : σ.st.Inv) (hf : σ.st.fault = none) : σ.Inv where
  state := h
  faultPc r hr := by rw [hf] at hr; cases hr
  faultAddr r a hr := by rw [hf] at hr; cases hr

/-- The state a raised fault leaves the block in (60_exceptions.md R201) meets the invariant. -/
theorem inv_latchFault {σ : Session} {r : FaultRecord} (h : σ.st.Inv) (hr : r.RaisedAt σ.st.pc) :
    Session.Inv { σ with st := σ.st.latchFault r, stepped := true } where
  state := h.of_eq rfl rfl rfl
  faultPc r' hr' := by cases hr'; exact hr.pc_eq
  faultAddr r' a hr' ha := by cases hr'; exact hr.addr_out a ha

theorem hostStep_inv_kept {σ σ' : Session} {a : HostResult} (h : hostStep σ = some (σ', a)) (hinv : σ.Inv) :
    σ'.Inv := by
  rcases hostStep_inv h with ⟨t, ht, rfl, -⟩ | ⟨r, hr, rfl, -⟩
  · obtain ⟨htinv, htf⟩ := stepKeepsTheInvariant _ _ hinv.state ht
    exact .of_unfaulted htinv htf
  · exact inv_latchFault hinv.state (step_raised hr)

/-- The longest ROM that `load_program` copies ends at the top of memory (70_reset_and_hazards.md R233). -/
theorem hostLoad_inv_kept {bytes : List Byte} {σ σ' : Session} {a : HostResult}
    (h : hostLoad bytes σ = some (σ', a)) (hinv : σ.Inv) : σ'.Inv := by
  obtain ⟨hf, -, -, ⟨-, rfl, -⟩ | ⟨hlen, rfl, -⟩⟩ := hostLoad_inv h
  · exact hinv
  · have hin : Config.romBase + bytes.length ≤ Config.memSize := by unfold Config.romBase Config.memSize; omega
    exact .of_unfaulted (hinv.state.storeBytes hin) hf

/-- Every enabled host operation keeps the invariant of the block. -/
theorem hostOp_inv_kept {op : HostOp} {σ σ' : Session} {a : HostResult} (h : hostOp op σ = some (σ', a))
    (hinv : σ.Inv) : σ'.Inv := by
  cases op with
  | reset => cases h; exact .of_unfaulted (resetBlock_inv σ.st) rfl
  | loadProgram bytes => exact hostLoad_inv_kept h hinv
  | setKey k =>
    simp only [hostOp] at h
    split_ifs at h with hf
    cases h; exact .of_unfaulted (hinv.state.of_eq rfl rfl rfl) hf
  | tick =>
    simp only [hostOp] at h
    split_ifs at h with hf
    cases h; exact .of_unfaulted (hinv.state.of_eq rfl rfl rfl) hf
  | step => exact hostStep_inv_kept h hinv

/-- Settles O40, by induction over the operations. -/
theorem hostOperationsKeepTheInvariant : Obligations.HostOperationsKeepTheInvariant := by
  intro ops
  induction ops with
  | nil => intro σ σ' hinv h; cases h; exact hinv
  | cons op ops ih =>
    intro σ σ' hinv h
    obtain ⟨σ₁, a, hop, hrest⟩ := runOps_cons.1 h
    exact ih σ₁ σ' (hostOp_inv_kept hop hinv) hrest

/-- Settles O39: the reset state is what a reset of itself leaves. -/
theorem resetMeetsTheInvariant : Obligations.ResetMeetsTheInvariant :=
  ⟨resetBlock_inv State.reset, .of_unfaulted (resetBlock_inv State.reset) rfl⟩

end Sys2Proof.Machine
end

section
/-! PROOF. Noninterference (10_state.md R23 to R36): the registers and the components each instruction can change. -/

namespace Sys2Proof.Machine

variable {s t : State} {i : Instr}

theorem SetsReg.writesReg {x : Reg} (hi : SetsReg i x) : WritesReg i x := by
  cases hi <;> rfl

theorem SetsRegFlag.writesReg {x r : Reg} (hi : SetsRegFlag i x) (hr : r = x ∨ r = Reg.vf) : WritesReg i r := by
  cases hi <;> exact hr

/-- A register that one register write changes is the one written. -/
theorem eq_of_setReg_ne {x r : Reg} {b : Byte} (h : (s.setReg x b).reg r ≠ s.reg r) : r = x :=
  not_imp_comm.1 (s.reg_setReg_other b) h

theorem eq_of_setRegFlag_ne {x r : Reg} {b : Byte} {f : Bool} (h : (s.setRegFlag x b f).reg r ≠ s.reg r) :
    r = x ∨ r = Reg.vf := by
  by_contra hn
  rw [not_or] at hn
  rw [s.reg_setRegFlag, if_neg hn.2, if_neg hn.1] at h
  exact h rfl

theorem le_of_loadRegs_ne {x r : Reg} (h : (s.loadRegs x).reg r ≠ s.reg r) : r ≤ x := by
  by_contra hn
  rw [s.reg_loadRegs, if_neg hn] at h
  exact h rfl

theorem Completion.writesReg_of_ne {r : Reg} (hc : Completion s i t) (hne : t.reg r ≠ s.reg r) : WritesReg i r := by
  cases hc with
  | reg b hi => exact eq_of_setReg_ne hne ▸ hi.writesReg
  | regFlag b f hi => exact hi.writesReg (eq_of_setRegFlag_ne hne)
  | draw b => exact eq_of_setReg_ne (s := s.takeDraw) hne
  | key hk => exact eq_of_setReg_ne hne
  | loadRegs => exact le_of_loadRegs_ne hne
  | skip => exact absurd (State.skipIf_reg s _ r) hne
  | _ => exact absurd rfl hne

theorem flagByte_zero_or_one (f : Bool) : flagByte f = 0 ∨ flagByte f = 1 := by
  cases f
  · exact .inl rfl
  · exact .inr rfl

/-- After a flag writer VF holds a flag, for X = 0xF too (decision D2). -/
theorem vf_of_setsRegFlag {x : Reg} (hi : SetsRegFlag i x) (h : exec i s = .next t) :
    t.reg Reg.vf = 0 ∨ t.reg Reg.vf = 1 := by
  obtain ⟨b, f, he⟩ := exec_setsRegFlag hi s
  rw [he] at h
  cases h
  rw [s.reg_setRegFlag, if_pos rfl]
  exact flagByte_zero_or_one f

/-- Settles O34, from the registers each completion writes and the flag that ends in VF. -/
theorem onlyListedInstructionsWriteRegisters : Obligations.OnlyListedInstructionsWriteRegisters := by
  refine ⟨fun i s t r h => (exec_next h).writesReg_of_ne, ?_⟩
  rintro x y s t i (rfl | rfl | rfl | rfl | rfl)
  · exact vf_of_setsRegFlag .addReg
  · exact vf_of_setsRegFlag .sub
  · exact vf_of_setsRegFlag .shr
  · exact vf_of_setsRegFlag .subn
  · exact vf_of_setsRegFlag .shl

/-! ## The other components: each has the updates that touch it -/

theorem Completion.index_of_ne (hc : Completion s i t) (hne : t.i ≠ s.i) :
    (∃ nnn, i = .ldI nnn) ∨ ∃ x, i = .addIVx x ∨ i = .ldFVx x := by
  cases hc with
  | index _ hi => exact hi
  | _ => simp at hne

theorem Completion.sp_of_ne (hc : Completion s i t) (hne : t.sp ≠ s.sp) : i = .ret ∨ ∃ nnn, i = .call nnn := by
  cases hc with
  | ret => exact .inl rfl
  | call => exact .inr ⟨_, rfl⟩
  | _ => simp at hne

theorem Completion.stack_of_ne (hc : Completion s i t) (hne : t.stack ≠ s.stack) : ∃ nnn, i = .call nnn := by
  cases hc with
  | call => exact ⟨_, rfl⟩
  | _ => simp at hne

theorem Completion.dt_of_ne (hc : Completion s i t) (hne : t.dt ≠ s.dt) : ∃ x, i = .ldDtVx x := by
  cases hc with
  | delay => exact ⟨_, rfl⟩
  | _ => simp at hne

theorem Completion.st_of_ne (hc : Completion s i t) (hne : t.st ≠ s.st) : ∃ x, i = .ldStVx x := by
  cases hc with
  | sound => exact ⟨_, rfl⟩
  | _ => simp at hne

theorem Completion.display_of_ne (hc : Completion s i t) (hne : t.display ≠ s.display) :
    i = .cls ∨ ∃ x y n, i = .drw x y n := by
  cases hc with
  | display _ hi => exact hi
  | _ => simp at hne

theorem Completion.mem_of_ne (hc : Completion s i t) (hne : t.mem ≠ s.mem) : ∃ x, i = .ldBVx x ∨ i = .ldMemVx x := by
  cases hc with
  | store _ hi => exact hi
  | _ => simp at hne

theorem Completion.draws_of_ne (hc : Completion s i t) (hne : t.draws ≠ s.draws) : ∃ x nn, i = .rnd x nn := by
  cases hc with
  | draw => exact ⟨_, _, rfl⟩
  | _ => simp at hne

/-- No instruction writes the key latch (decision D19). -/
theorem Completion.key_eq (hc : Completion s i t) : t.key = s.key := by
  cases hc with
  | skip => exact State.skipIf_key _ _
  | _ => rfl

/-- Settles O35, one component at a time. -/
theorem onlyListedInstructionsWriteEachComponent : Obligations.OnlyListedInstructionsWriteEachComponent := by
  intro i s t h
  have hc := exec_next h
  exact ⟨hc.index_of_ne, hc.sp_of_ne, hc.stack_of_ne, hc.dt_of_ne, hc.st_of_ne, hc.display_of_ne, hc.mem_of_ne,
    hc.key_eq, hc.fault_eq, hc.draws_of_ne⟩

end Sys2Proof.Machine
end

section
/-! PROOF. PC at the end of a step that completes (10_state.md R28). -/

namespace Sys2Proof.Machine

/-- The key test of EX9E and EXA1 compares all eight bits of VX (decision D18). -/
theorem keyIs_iff (x : Reg) (s : State) : keyIs x s = true ↔ s.key.map Fin.val = some (s.reg x).toNat := by
  unfold keyIs
  split
  case h_1 hk => simp [hk]
  case h_2 k hk => simp [hk]

/-- PC after a skip, from the PC before fetch (00_scope.md R13). -/
theorem skipIf_advance_pc (s : State) (c : Bool) :
    (s.advance.skipIf c).pc = if c = true then s.pc + 4 else s.pc + 2 := by
  rw [State.skipIf_pc, State.advance_pc, BitVec.add_assoc]
  rfl

theorem skipIf_not_advance_pc (s : State) (c : Bool) :
    (s.advance.skipIf !c).pc = if c = true then s.pc + 2 else s.pc + 4 := by
  rw [skipIf_advance_pc]
  cases c <;> rfl

/-- Settles O37: PC of each completion on the state that fetch leaves. -/
theorem pcAfterACompletedStep : Obligations.PcAfterACompletedStep := by
  intro s t w hw hstep
  have hf : s.fault = none := (step_next hstep).1
  rw [step_of_fetch hf hw] at hstep
  have hc := exec_next hstep
  generalize decode w = i at hc
  cases hc with
  | nop | draw | loadRegs | delay | sound => rfl
  | reg b hi => cases hi <;> rfl
  | regFlag b f hi => cases hi <;> rfl
  | key hk => exact (if_neg (by rw [show s.key = _ from hk]; exact Option.some_ne_none _)).symm
  | keyWait hk =>
    rw [State.setPc_pc, State.advance_pc, BitVec.add_sub_cancel]
    exact (if_pos hk).symm
  | skip hi =>
    cases hi with
    | seImm => exact (skipIf_advance_pc s _).trans (by simp)
    | sneImm => exact (skipIf_not_advance_pc s _).trans (by simp)
    | seReg => exact (skipIf_advance_pc s _).trans (by simp)
    | sneReg => exact (skipIf_not_advance_pc s _).trans (by simp)
    | @skp x => exact (skipIf_advance_pc s _).trans (if_congr (keyIs_iff x s.advance) rfl rfl)
    | @sknp x => exact (skipIf_not_advance_pc s _).trans (if_congr (keyIs_iff x s.advance) rfl rfl)
  | jump => exact toNat_zext16 _
  | jumpV0 => exact toNat_jumpV0Target _ s.advance
  | call => exact toNat_zext16 _
  | ret hsp =>
    intro k hk
    have hslot : s.sp.val - 1 = k.val := by omega
    simp [hslot]
  | index w hi => obtain ⟨nnn, rfl⟩ | ⟨x, rfl | rfl⟩ := hi <;> rfl
  | display d hi => obtain rfl | ⟨x, y, n, rfl⟩ := hi <;> rfl
  | store bs hi hin => obtain ⟨x, rfl | rfl⟩ := hi <;> rfl

end Sys2Proof.Machine
end

section
/-! PROOF. Memory as fetch sees it (20_memory.md R52, R62; 30_encoding.md R71): the word at PC, the fault when a byte of it
is outside memory, and the word that FX55 has stored. -/

namespace Sys2Proof.Machine

variable {s t : State}

/-! ## The two answers of fetch -/

/-- A fetch with both bytes in memory answers the big-endian value of the two (20_memory.md R52). -/
theorem fetch_bigEndian (h : s.pc.toNat + 1 < 4096) :
    ∃ w, fetch s = .ok w ∧ w.toNat = (s.byte s.pc.toNat).toNat * 256 + (s.byte (s.pc.toNat + 1)).toNat :=
  ⟨_, fetch_ok s h, toNat_wordOfBytes _ _⟩

/-- A step of an unfaulted block whose fetch fails raises the record of the fetch (R82). -/
theorem step_of_fetch_error {r : FaultRecord} (hf : s.fault = none) (h : fetch s = .error r) :
    step s = .fault (.raised r) := by
  unfold step
  rw [hf, h]
  rfl

/-- Settles O8: one fetch law for each of the three ranges of PC. -/
theorem fetchReadsBigEndianOrFaults : Obligations.FetchReadsBigEndianOrFaults := by
  intro s
  refine ⟨fetch_bigEndian, fun hf hpc => ?second_byte_out, fun hf hpc => ?first_byte_out⟩
  case second_byte_out => exact step_of_fetch_error hf (fetch_second_byte_out s hpc)
  case first_byte_out => exact step_of_fetch_error hf (fetch_first_byte_out s hpc)

/-! ## Fetch after FX55 -/

/-- The one way FX55 completes (43_index_timer_input.md R175): all X + 1 bytes are in memory, and it stores them. -/
theorem exec_ldMemVx_next {x : Reg} (h : exec (.ldMemVx x) s = .next t) :
    s.i.toNat + x.val < 4096 ∧ t = s.storeBytes s.i.toNat (regsUpTo x s) := by
  obtain ⟨hin, hgo⟩ := guardBlock_next (go := .next (s.storeBytes s.i.toNat (regsUpTo x s))) h
  cases hgo
  exact ⟨Nat.lt_of_succ_le (blockInRange_store x.val.succ_pos hin), rfl⟩

/-- After FX55 the byte at I + k is V[k], for every k up to X (R175). -/
theorem byte_of_exec_ldMemVx {x k : Reg} (h : exec (.ldMemVx x) s = .next t) (hk : k ≤ x) :
    t.byte (s.i.toNat + k.val) = s.reg k := by
  obtain ⟨-, rfl⟩ := exec_ldMemVx_next h
  exact byte_storeRegs x k s hk

/-- Settles O48: FX55's own range check puts the word at PC in memory, and its two bytes are the registers stored there. -/
theorem nextFetchSeesStoredBytes : Obligations.NextFetchSeesStoredBytes := by
  intro x k hk s t hkx hexec hpc
  have hin : s.i.toNat + x.val < 4096 := (exec_ldMemVx_next hexec).1
  have hhi : t.byte t.pc.toNat = s.reg k := by
    rw [hpc]
    exact byte_of_exec_ldMemVx hexec (Nat.le_of_succ_le hkx)
  have hlo : t.byte (t.pc.toNat + 1) = s.reg ⟨k.val + 1, hk⟩ := by
    rw [hpc, Nat.add_assoc]
    exact byte_of_exec_ldMemVx (k := ⟨k.val + 1, hk⟩) hexec hkx
  rw [fetch_ok t (by omega), hhi, hlo]

end Sys2Proof.Machine
end

section
/-! PROOF. The inverse of the encoder (30_encoding.md R73 to R83): which words decode to `unknown`, the two levels of
the dispatch, and the two round trips. -/

namespace Sys2Proof

/-! ## The unknown words, family by family (R80) -/

/-- R80's list, as the statements write it. -/
theorem isUnknownWord_iff (w : Word) : isUnknownWord w = true ↔
    ((w.toNat / 4096 = 0x0 ∧ w.toNat ≠ 0x00E0 ∧ w.toNat ≠ 0x00EE) ∨
     (w.toNat / 4096 = 0x8 ∧ w.toNat % 16 ∈ [0x8, 0x9, 0xA, 0xB, 0xC, 0xD, 0xF]) ∨
     (w.toNat / 4096 = 0xE ∧ w.toNat % 256 ∉ [0x9E, 0xA1]) ∨
     (w.toNat / 4096 = 0xF ∧ w.toNat % 256 ∉ [0x07, 0x0A, 0x15, 0x18, 0x1E, 0x29, 0x33, 0x55, 0x65])) := by
  unfold isUnknownWord
  split
  case h_1 h | h_2 h | h_3 h | h_4 h => simp [h]
  case h_5 h0 h8 hE hF =>
    refine iff_of_false Bool.false_ne_true ?_
    rintro (⟨h, -⟩ | ⟨h, -⟩ | ⟨h, -⟩ | ⟨h, -⟩)
    exacts [h0 h, h8 h, hE h, hF h]

theorem decode0_eq_unknown (w : Word) : decode0 w = .unknown w ↔ w.toNat ≠ 0x00E0 ∧ w.toNat ≠ 0x00EE := by
  have hcls : w = 0x00E0 ↔ w.toNat = 0x00E0 := BitVec.toNat_inj.symm
  have hret : w = 0x00EE ↔ w.toNat = 0x00EE := BitVec.toNat_inj.symm
  unfold decode0
  split_ifs <;> simp_all

theorem decode8_eq_unknown (w : Word) :
    decode8 w = .unknown w ↔ w.toNat % 16 ∈ [0x8, 0x9, 0xA, 0xB, 0xC, 0xD, 0xF] := by
  unfold decode8
  split
  case h_10 => simp_all [fieldN_eq_iff]; omega
  all_goals simp_all [fieldN_eq_iff]

theorem decodeE_eq_unknown (w : Word) : decodeE w = .unknown w ↔ w.toNat % 256 ∉ [0x9E, 0xA1] := by
  unfold decodeE
  split <;> simp_all [fieldNN_eq_iff]

theorem decodeF_eq_unknown (w : Word) :
    decodeF w = .unknown w ↔ w.toNat % 256 ∉ [0x07, 0x0A, 0x15, 0x18, 0x1E, 0x29, 0x33, 0x55, 0x65] := by
  unfold decodeF
  split <;> simp_all [fieldNN_eq_iff]

/-- R80's list through the dispatch: a family whose table has no row for the word. -/
theorem isUnknownWord_iff_dispatch (w : Word) : isUnknownWord w = true ↔
    (fieldF w = 0x0 ∧ decode0 w = .unknown w) ∨ (fieldF w = 0x8 ∧ decode8 w = .unknown w) ∨
      (fieldF w = 0xE ∧ decodeE w = .unknown w) ∨ (fieldF w = 0xF ∧ decodeF w = .unknown w) := by
  simp only [fieldF_eq_iff, decode0_eq_unknown, decode8_eq_unknown, decodeE_eq_unknown, decodeF_eq_unknown]
  exact isUnknownWord_iff w

/-! ## The first level of the dispatch (R79) -/

/-- What the family nibble selects. -/
inductive Dispatch (w : Word) : Instr → Prop
  | family0 (h : fieldF w = 0x0) : Dispatch w (decode0 w)
  | jp (h : fieldF w = 0x1) : Dispatch w (.jp (fieldNNN w))
  | call (h : fieldF w = 0x2) : Dispatch w (.call (fieldNNN w))
  | seImm (h : fieldF w = 0x3) : Dispatch w (.seImm (fieldX w) (fieldNN w))
  | sneImm (h : fieldF w = 0x4) : Dispatch w (.sneImm (fieldX w) (fieldNN w))
  | seReg (h : fieldF w = 0x5) : Dispatch w (.seReg (fieldX w) (fieldY w))
  | ldImm (h : fieldF w = 0x6) : Dispatch w (.ldImm (fieldX w) (fieldNN w))
  | addImm (h : fieldF w = 0x7) : Dispatch w (.addImm (fieldX w) (fieldNN w))
  | family8 (h : fieldF w = 0x8) : Dispatch w (decode8 w)
  | sneReg (h : fieldF w = 0x9) : Dispatch w (.sneReg (fieldX w) (fieldY w))
  | ldI (h : fieldF w = 0xA) : Dispatch w (.ldI (fieldNNN w))
  | jpV0 (h : fieldF w = 0xB) : Dispatch w (.jpV0 (fieldNNN w))
  | rnd (h : fieldF w = 0xC) : Dispatch w (.rnd (fieldX w) (fieldNN w))
  | drw (h : fieldF w = 0xD) : Dispatch w (.drw (fieldX w) (fieldY w) (fieldN w).toFin)
  | familyE (h : fieldF w = 0xE) : Dispatch w (decodeE w)
  | familyF (h : fieldF w = 0xF) : Dispatch w (decodeF w)

/-- The decoder answers what the family nibble selects; its last arm is family F alone. -/
theorem dispatch_decode (w : Word) : Dispatch w (decode w) := by
  unfold decode
  split
  case h_16 => exact .familyF (by simp_all [fieldF_eq_iff]; omega)
  all_goals (constructor; assumption)

theorem decode_family0 {w : Word} (h : fieldF w = 0x0) : decode w = decode0 w := by rw [decode, h]; rfl
theorem decode_family5 {w : Word} (h : fieldF w = 0x5) : decode w = .seReg (fieldX w) (fieldY w) := by
  rw [decode, h]; rfl
theorem decode_family8 {w : Word} (h : fieldF w = 0x8) : decode w = decode8 w := by rw [decode, h]; rfl
theorem decode_family9 {w : Word} (h : fieldF w = 0x9) : decode w = .sneReg (fieldX w) (fieldY w) := by
  rw [decode, h]; rfl
theorem decode_familyE {w : Word} (h : fieldF w = 0xE) : decode w = decodeE w := by rw [decode, h]; rfl
theorem decode_familyF {w : Word} (h : fieldF w = 0xF) : decode w = decodeF w := by rw [decode, h]; rfl

theorem decode_eq_unknown (w : Word) : decode w = .unknown w ↔ isUnknownWord w = true := by
  rw [isUnknownWord_iff_dispatch]
  have hd := dispatch_decode w
  generalize decode w = i at hd
  cases hd with
  | family0 h | family8 h | familyE h | familyF h => simp [h]
  | _ h => simp [h]

/-! ## Decode of encode -/

/-- The encoder writes the fields that the dispatch reads; an `unknown` is decoded by R80's list. -/
theorem decode_encode {i : Instr} (h : i.wf = true) : decode (encode i) = i := by
  cases i with
  | unknown w => exact (decode_eq_unknown w).2 h
  | cls | ret => rfl
  | jp | call | ldI | jpV0 => simp [encode, decode]
  | seImm | sneImm | ldImm | addImm | rnd => simp [encode, decode]
  | seReg | sneReg | drw => simp [encode, decode]
  | ldReg | or | and | xor | addReg | sub | shr | subn | shl => simp [encode, decode, decode8]
  | skp | sknp => simp [encode, decode, decodeE]
  | ldVxDt | ldVxK | ldDtVx | ldStVx | addIVx | ldFVx | ldBVx | ldMemVx | ldVxMem => simp [encode, decode, decodeF]

@[simp] theorem decodeBytes_encodeBytes (i : Instr) (rest : List Byte) :
    decodeBytes (encodeBytes i ++ rest) = .ok (decode (encode i), rest) := by
  simp [encodeBytes, decodeBytes]

/-- Settles O2: the two bytes make the encoded word again, and the word decodes to the instruction. -/
theorem decodeOfEncodeIsTheInstruction : Obligations.DecodeOfEncodeIsTheInstruction := by
  intro i rest h
  rw [decodeBytes_encodeBytes, decode_encode h]

/-! ## A word from its own fields (R75) -/

theorem encA12_fields {w : Word} {f : BitVec 4} (hf : fieldF w = f) : encA12 f (fieldNNN w) = w := by
  apply BitVec.eq_of_toNat_eq
  rw [toNat_encA12, ← hf, toNat_fieldF, toNat_fieldNNN]
  omega

theorem encRI8_fields {w : Word} {f : BitVec 4} {nn : Byte} (hf : fieldF w = f) (hnn : fieldNN w = nn) :
    encRI8 f (fieldX w) nn = w := by
  apply BitVec.eq_of_toNat_eq
  rw [toNat_encRI8, ← hf, ← hnn, toNat_fieldF, val_fieldX, toNat_fieldNN]
  omega

theorem encRRN_fields {w : Word} {f n : BitVec 4} (hf : fieldF w = f) (hn : fieldN w = n) :
    encRRN f (fieldX w) (fieldY w) n = w := by
  apply BitVec.eq_of_toNat_eq
  rw [toNat_encRRN, ← hf, ← hn, toNat_fieldF, val_fieldX, val_fieldY, toNat_fieldN]
  omega

/-- Written with N = 0, a word loses its low nibble. -/
theorem encRRN_zero_fields {w : Word} {f : BitVec 4} (hf : fieldF w = f) :
    encRRN f (fieldX w) (fieldY w) 0#4 = BitVec.ofNat 16 (w.toNat / 16 * 16) := by
  have h0 : (0#4).toNat = 0 := rfl
  apply BitVec.eq_of_toNat_eq
  rw [toNat_encRRN, ← hf, toNat_fieldF, val_fieldX, val_fieldY, h0, BitVec.toNat_ofNat]
  omega

theorem canonicalWord_of_ignored {w : Word} (h : fieldF w = 0x5 ∨ fieldF w = 0x9) :
    canonicalWord w = BitVec.ofNat 16 (w.toNat / 16 * 16) := by
  simp only [fieldF_eq_iff] at h
  exact if_pos h

theorem canonicalWord_of_ne {w : Word} (h5 : fieldF w ≠ 0x5) (h9 : fieldF w ≠ 0x9) : canonicalWord w = w := by
  rw [Ne, fieldF_eq_iff] at h5 h9
  exact if_neg (not_or.2 ⟨h5, h9⟩)

/-! ## Encode of decode -/

theorem encode_decode0 (w : Word) : encode (decode0 w) = w := by
  unfold decode0
  split_ifs with hcls hret
  · exact hcls.symm
  · exact hret.symm
  · rfl

theorem encode_decode8 {w : Word} (h : fieldF w = 0x8) : encode (decode8 w) = w := by
  unfold decode8
  split
  case h_10 => rfl
  all_goals exact encRRN_fields h ‹_›

theorem encode_decodeE {w : Word} (h : fieldF w = 0xE) : encode (decodeE w) = w := by
  unfold decodeE
  split
  case h_3 => rfl
  all_goals exact encRI8_fields h ‹_›

theorem encode_decodeF {w : Word} (h : fieldF w = 0xF) : encode (decodeF w) = w := by
  unfold decodeF
  split
  case h_10 => rfl
  all_goals exact encRI8_fields h ‹_›

/-- Outside families 5 and 9 the encoder writes every bit that the decoder reads. -/
theorem encode_decode_of_ne {w : Word} (h5 : fieldF w ≠ 0x5) (h9 : fieldF w ≠ 0x9) : encode (decode w) = w := by
  have hd := dispatch_decode w
  generalize decode w = i at hd
  cases hd with
  | family0 => exact encode_decode0 w
  | family8 h => exact encode_decode8 h
  | familyE h => exact encode_decodeE h
  | familyF h => exact encode_decodeF h
  | jp h | call h | ldI h | jpV0 h => exact encA12_fields h
  | seImm h | sneImm h | ldImm h | addImm h | rnd h => exact encRI8_fields h rfl
  | drw h => exact encRRN_fields h rfl
  | seReg h => exact absurd h h5
  | sneReg h => exact absurd h h9

theorem encode_decode (w : Word) : encode (decode w) = canonicalWord w := by
  by_cases h5 : fieldF w = 0x5
  · rw [canonicalWord_of_ignored (.inl h5), decode_family5 h5]
    exact encRRN_zero_fields h5
  by_cases h9 : fieldF w = 0x9
  · rw [canonicalWord_of_ignored (.inr h9), decode_family9 h9]
    exact encRRN_zero_fields h9
  rw [canonicalWord_of_ne h5 h9, encode_decode_of_ne h5 h9]

/-- An `unknown` carries the word it was decoded from (R81). -/
theorem eq_of_decode_unknown {w u : Word} (h : decode w = .unknown u) : u = w := by
  have h5 : fieldF w ≠ 0x5 := fun hF => by rw [decode_family5 hF] at h; cases h
  have h9 : fieldF w ≠ 0x9 := fun hF => by rw [decode_family9 hF] at h; cases h
  calc u = encode (decode w) := by rw [h]; rfl
    _ = w := encode_decode_of_ne h5 h9

theorem exists_decode_unknown_iff (w : Word) : (∃ u, decode w = .unknown u) ↔ isUnknownWord w = true := by
  rw [← decode_eq_unknown]
  refine ⟨fun ⟨u, hu⟩ => ?_, fun h => ⟨w, h⟩⟩
  rwa [eq_of_decode_unknown hu] at hu

theorem wf_decode (w : Word) : (decode w).wf = true := by
  cases h : decode w with
  | unknown u =>
    obtain rfl := eq_of_decode_unknown h
    exact (decode_eq_unknown u).1 h
  | _ => rfl

/-- Settles O3: only an `unknown` could be ill formed, and only families 5 and 9 are written with another nibble. -/
theorem encodeOfDecodeIsTheWord : Obligations.EncodeOfDecodeIsTheWord :=
  fun w => ⟨wf_decode w, encode_decode w⟩

end Sys2Proof
end

section
/-! PROOF. The decoder and the opcode table (30_encoding.md R79 to R81, spec/opcode_table.json). -/

namespace Sys2Proof

/-! ## The encoder's law, of every instruction -/

theorem Laws.EncodesInItsRow.statement (i : Instr) : Statement i := by
  cases i
  exacts [cls, ret, jp _, call _, seImm _ _, sneImm _ _, seReg _ _, ldImm _ _, addImm _ _, ldReg _ _, or _ _, and _ _,
    xor _ _, addReg _ _, sub _ _, shr _ _, subn _ _, shl _ _, sneReg _ _, ldI _, jpV0 _, rnd _ _, drw _ _ _, skp _,
    sknp _, ldVxDt _, ldVxK _, ldDtVx _, ldStVx _, addIVx _, ldFVx _, ldBVx _, ldMemVx _, ldVxMem _, unknown _]

/-! ## A row's mask compares the fields that the dispatch reads -/

theorem inRow_F000_iff {w m : Word} (hm : m.toNat % 4096 = 0) : inRow w (m, 0xF000) = true ↔ fieldF w = fieldF m := by
  rw [inRow_F000, decide_eq_true_iff, fieldF_eq_iff, toNat_fieldF]
  omega

theorem inRow_F00F_iff {w m : Word} (hm : m.toNat / 16 % 256 = 0) :
    inRow w (m, 0xF00F) = true ↔ fieldF w = fieldF m ∧ fieldN w = fieldN m := by
  rw [inRow_F00F, decide_eq_true_iff, fieldF_eq_iff, toNat_fieldF, fieldN_eq_iff, toNat_fieldN]
  omega

theorem inRow_F0FF_iff {w m : Word} (hm : m.toNat / 256 % 16 = 0) :
    inRow w (m, 0xF0FF) = true ↔ fieldF w = fieldF m ∧ fieldNN w = fieldNN m := by
  rw [inRow_F0FF, decide_eq_true_iff, fieldF_eq_iff, toNat_fieldF, fieldNN_eq_iff, toNat_fieldNN]
  omega

theorem inRow_FFFF_iff {w m : Word} : inRow w (m, 0xFFFF) = true ↔ w = m := by
  rw [inRow_FFFF, decide_eq_true_iff, BitVec.toNat_inj]

/-! ## The three clauses -/

/-- A word in a row other than the fallback has that row's dispatch fields, so it decodes into the row. -/
theorem row_decode_of_inRow {w : Word} {i : Instr} (hi : ∀ u, i ≠ .unknown u) (h : inRow w i.row = true) :
    (decode w).row = i.row := by
  cases i with
  | unknown u => exact absurd rfl (hi u)
  | cls | ret => rw [inRow_FFFF_iff.1 h]; rfl
  | jp | call | seImm | sneImm | seReg | ldImm | addImm | sneReg | ldI | jpV0 | rnd | drw =>
    rw [decode, (inRow_F000_iff (by decide)).1 h]
    rfl
  | ldReg | or | and | xor | addReg | sub | shr | subn | shl =>
    obtain ⟨hF, hN⟩ := (inRow_F00F_iff (by decide)).1 h
    rw [decode_family8 hF, decode8, hN]
    rfl
  | skp | sknp =>
    obtain ⟨hF, hNN⟩ := (inRow_F0FF_iff (by decide)).1 h
    rw [decode_familyE hF, decodeE, hNN]
    rfl
  | ldVxDt | ldVxK | ldDtVx | ldStVx | addIVx | ldFVx | ldBVx | ldMemVx | ldVxMem =>
    obtain ⟨hF, hNN⟩ := (inRow_F0FF_iff (by decide)).1 h
    rw [decode_familyF hF, decodeF, hNN]
    rfl

/-- A word is the encoding of what it decodes to, but in families 5 and 9, whose rows do not look at the low nibble. -/
theorem inRow_row_decode (w : Word) : inRow w (decode w).row = true := by
  by_cases h5 : fieldF w = 0x5
  · rw [decode_family5 h5]
    exact (inRow_F000_iff (by decide)).2 h5
  by_cases h9 : fieldF w = 0x9
  · rw [decode_family9 h9]
    exact (inRow_F000_iff (by decide)).2 h9
  have h := Laws.EncodesInItsRow.statement (decode w) (wf_decode w)
  rwa [encode_decode_of_ne h5 h9] at h

theorem eq_unknown_of_row {i : Instr} (h : i.row = (0x0000, 0x0000)) : ∃ u, i = .unknown u := by
  cases i with
  | unknown u => exact ⟨u, rfl⟩
  | _ => simp [Instr.row] at h

/-- A word that decodes to `unknown` is in no row but the fallback: it would decode into that row. -/
theorem inRow_false_of_decode_unknown {w u : Word} {i : Instr} (hu : decode w = .unknown u)
    (hi : ∀ v, i ≠ .unknown v) : inRow w i.row = false := by
  by_contra hrow
  have hr : (decode w).row = i.row := row_decode_of_inRow hi (eq_true_of_ne_false hrow)
  rw [hu] at hr
  obtain ⟨v, hv⟩ := eq_unknown_of_row hr.symm
  exact hi v hv

/-- Settles O4, a lemma for each clause. -/
theorem decodeAgreesWithTheOpcodeTable : Obligations.DecodeAgreesWithTheOpcodeTable :=
  ⟨fun _ _ => row_decode_of_inRow, inRow_row_decode,
    fun _ _ hu => ⟨eq_of_decode_unknown hu, fun _ => inRow_false_of_decode_unknown hu⟩⟩

end Sys2Proof
end

section
/-! PROOF. Words written from their nibbles (30_encoding.md R77, R78, R84), and the step over a decoded word (R72, R81,
R82). -/

namespace Sys2Proof.Machine

/-! ## Families 0, 5 and 9 -/

theorem encA12_inj {f : BitVec 4} {a b : BitVec 12} : encA12 f a = encA12 f b ↔ a = b :=
  ⟨fun h => by simpa using congrArg fieldNNN h, congrArg (encA12 f)⟩

/-- Family 0 compares whole words, and a word of it is told by its low twelve bits. -/
theorem decode_addrWord_zero (nnn : BitVec 12) : decode (addrWord 0 nnn) =
    if nnn = 0x0E0 then .cls else if nnn = 0x0EE then .ret else .unknown (addrWord 0 nnn) := by
  have hw : addrWord 0 nnn = encA12 0x0#4 nnn := (encA12_eq_addrWord 0x0#4 nnn).symm
  have hF : fieldF (encA12 0x0#4 nnn) = 0x0 := fieldF_encA12 _ _
  have hcls : encA12 0x0#4 nnn = 0x00E0 ↔ nnn = 0x0E0 := encA12_inj (b := 0x0E0)
  have hret : encA12 0x0#4 nnn = 0x00EE ↔ nnn = 0x0EE := encA12_inj (b := 0x0EE)
  rw [hw, decode_family0 hF]
  simp only [decode0, hcls, hret]

theorem decode_opWord_seReg (x y : Reg) (n : Fin 16) : decode (opWord 0x5 x y n) = .seReg x y := by
  have hw : opWord 0x5 x y n = encRRN 0x5#4 x y (.ofFin n) := (encRRN_eq_opWord 0x5#4 x y (.ofFin n)).symm
  simp [hw, decode_family5]

theorem decode_opWord_sneReg (x y : Reg) (n : Fin 16) : decode (opWord 0x9 x y n) = .sneReg x y := by
  have hw : opWord 0x9 x y n = encRRN 0x9#4 x y (.ofFin n) := (encRRN_eq_opWord 0x9#4 x y (.ofFin n)).symm
  simp [hw, decode_family9]

/-- Settles O5, a lemma for each family. -/
theorem familiesZeroFiveAndNineDecode : Obligations.FamiliesZeroFiveAndNineDecode :=
  ⟨decode_addrWord_zero, fun x y n => ⟨decode_opWord_seReg x y n, decode_opWord_sneReg x y n⟩⟩

/-! ## The step over a decoded word -/

theorem exec_unknown (w : Word) (s : State) : exec (.unknown w) s = .next s := rfl

theorem step_unknown {s : State} {w u : Word} (hf : s.fault = none) (hw : fetch s = .ok w)
    (hu : decode w = .unknown u) : step s = .next s.advance := by
  rw [step_of_fetch hf hw, hu, exec_unknown]

/-- Settles O6: the decoder's `unknown` is R80's list, and a step over one is the advance of PC alone. -/
theorem unknownWordsAreNoOps : Obligations.UnknownWordsAreNoOps := by
  refine ⟨fun w => ?list, exec_unknown, fun s w u hf hw hu => ⟨s.advance, step_unknown hf hw hu, ?pc, ?frame⟩⟩
  case list => exact (exists_decode_unknown_iff w).trans (isUnknownWord_iff w)
  case pc => exact s.advance_pc
  case frame => exact frame_setPc s _

/-- Settles O1: R84's words and its ROM, evaluated. -/
theorem sourceWordsDecodeAsTheSourceSays : Obligations.SourceWordsDecodeAsTheSourceSays := by
  unfold Obligations.SourceWordsDecodeAsTheSourceSays
  decide

/-- Settles O7: the two bytes decode to `i` only when `i` is the decoding of their word. -/
theorem stepRunsTheDecodedInstruction : Obligations.StepRunsTheDecodedInstruction := by
  intro s i hf hpc hi
  cases hi
  exact ⟨wf_decode _, step_exec s hf hpc, s.advance_toNat hpc⟩

end Sys2Proof.Machine
end

section
/-! PROOF. The ALU family but for CXNN (40_alu.md R100 to R111): the words of families 6, 7 and 8, the state each meaning
leaves, and every result and flag as a number. -/

namespace Sys2Proof.Machine

variable {s : State} {i : Instr} {x : Reg}

/-! ## A word that the encoder writes -/

/-- A word decodes to the well-formed instruction whose encoding it is. -/
theorem decode_of_encode_eq {w : Word} (hwf : i.wf = true) (hw : encode i = w) : decode w = i :=
  hw ▸ decode_encode hwf

/-! ## The state each meaning leaves -/

theorem exec_ldImm (x : Reg) (nn : Byte) (s : State) : exec (.ldImm x nn) s = .next (s.setReg x nn) := rfl
theorem exec_addImm (x : Reg) (nn : Byte) (s : State) :
    exec (.addImm x nn) s = .next (s.setReg x (s.reg x + nn)) := rfl
theorem exec_ldReg (x y : Reg) (s : State) : exec (.ldReg x y) s = .next (s.setReg x (s.reg y)) := rfl
theorem exec_or (x y : Reg) (s : State) : exec (.or x y) s = .next (s.setReg x (s.reg x ||| s.reg y)) := rfl
theorem exec_and (x y : Reg) (s : State) : exec (.and x y) s = .next (s.setReg x (s.reg x &&& s.reg y)) := rfl
theorem exec_xor (x y : Reg) (s : State) : exec (.xor x y) s = .next (s.setReg x (s.reg x ^^^ s.reg y)) := rfl
theorem exec_addReg (x y : Reg) (s : State) :
    exec (.addReg x y) s = .next (s.setRegFlag x (s.reg x + s.reg y) (carry (s.reg x) (s.reg y))) := rfl
theorem exec_sub (x y : Reg) (s : State) :
    exec (.sub x y) s = .next (s.setRegFlag x (s.reg x - s.reg y) (noBorrow (s.reg x) (s.reg y))) := rfl
theorem exec_subn (x y : Reg) (s : State) :
    exec (.subn x y) s = .next (s.setRegFlag x (s.reg y - s.reg x) (noBorrow (s.reg y) (s.reg x))) := rfl
theorem exec_shr (x y : Reg) (s : State) :
    exec (.shr x y) s = .next (s.setRegFlag x (s.reg y >>> 1) (shiftOutRight (s.reg y))) := rfl
theorem exec_shl (x y : Reg) (s : State) :
    exec (.shl x y) s = .next (s.setRegFlag x (s.reg y <<< 1) (shiftOutLeft (s.reg y))) := rfl

/-! ## A result with its flag (R100) -/

/-- VF ends holding the flag, X = 0xF included (decision D2). -/
@[simp] theorem State.reg_setRegFlag_vf (s : State) (x : Reg) (b : Byte) (f : Bool) :
    (s.setRegFlag x b f).reg Reg.vf = flagByte f := by
  rw [State.reg_setRegFlag, if_pos rfl]

/-- The result stays in VX unless VX is VF. -/
theorem State.reg_setRegFlag_result (hx : x ≠ Reg.vf) (s : State) (b : Byte) (f : Bool) :
    (s.setRegFlag x b f).reg x = b := by
  rw [State.reg_setRegFlag, if_neg hx, if_pos rfl]

/-! ## Results and flags as numbers -/

/-- The subtrahend is at most 255, so the sum with 256 does not go below 0. -/
theorem toNat_sub_byte (a b : Byte) : (a - b).toNat = (a.toNat + 256 - b.toNat) % 256 := by
  rw [BitVec.toNat_sub', ← Nat.add_sub_assoc b.isLt.le]

theorem flagByte_decide (p : Prop) [Decidable p] : flagByte (decide p) = if p then 1 else 0 := by
  simp [flagByte]

theorem flagByte_carry (a b : Byte) : flagByte (carry a b) = if a.toNat + b.toNat > 255 then 1 else 0 :=
  flagByte_decide _

theorem flagByte_noBorrow (a b : Byte) : flagByte (noBorrow a b) = if a.toNat ≥ b.toNat then 1 else 0 :=
  flagByte_decide _

theorem toNat_flagByte (f : Bool) : (flagByte f).toNat = f.toNat := by
  cases f <;> rfl

/-- Bit 0 of a byte is its remainder by 2 (R109). -/
theorem toNat_flagByte_shiftOutRight (v : Byte) : (flagByte (shiftOutRight v)).toNat = v.toNat % 2 := by
  rw [toNat_flagByte, shiftOutRight, BitVec.getLsbD, Nat.toNat_testBit, Nat.pow_zero, Nat.div_one]

/-- Bit 7 of a byte is its quotient by 128, which is below 2 (R111). -/
theorem toNat_flagByte_shiftOutLeft (v : Byte) : (flagByte (shiftOutLeft v)).toNat = v.toNat / 128 := by
  have hlt : v.toNat / 2 ^ 7 < 2 := Nat.div_lt_of_lt_mul v.isLt
  rw [toNat_flagByte, shiftOutLeft, BitVec.getLsbD, Nat.toNat_testBit]
  exact Nat.mod_eq_of_lt hlt

/-! ## The moves, the immediates and the bitwise operations -/

/-- An instruction that answers a write of `b` to VX changes nothing else. -/
theorem writes_of_exec {b : Byte} (h : exec i s = .next (s.setReg x b)) :
    ∃ t, exec i s = .next t ∧ t.reg x = b ∧ ChangesOnly (fun p => p = .reg x) s t :=
  ⟨_, h, s.reg_setReg_same x b, frame_setReg s x b⟩

/-- Settles O9: both meanings write VX alone, and the sum of two bytes wraps at 256. -/
theorem immediateLoadAndAdd : Obligations.ImmediateLoadAndAdd := by
  intro x nn s
  refine ⟨?word_load, ?word_add, writes_of_exec (exec_ldImm x nn s), ?add⟩
  case word_load => exact decode_of_encode_eq rfl (encRI8_eq_immWord 0x6#4 x nn)
  case word_add => exact decode_of_encode_eq rfl (encRI8_eq_immWord 0x7#4 x nn)
  case add =>
    obtain ⟨t, ht, hreg, hframe⟩ := writes_of_exec (exec_addImm x nn s)
    refine ⟨t, ht, ?_, hframe⟩
    rw [hreg, BitVec.toNat_add]

/-- Settles O10: four words of family 8, and four meanings that write VX alone. -/
theorem registerMoveAndLogic : Obligations.RegisterMoveAndLogic := by
  intro x y s
  refine ⟨⟨?word_move, ?word_or, ?word_and, ?word_xor⟩, writes_of_exec (exec_ldReg x y s),
    writes_of_exec (exec_or x y s), writes_of_exec (exec_and x y s), writes_of_exec (exec_xor x y s)⟩
  case word_move => exact decode_of_encode_eq rfl (encRRN_eq_opWord 0x8#4 x y 0x0#4)
  case word_or => exact decode_of_encode_eq rfl (encRRN_eq_opWord 0x8#4 x y 0x1#4)
  case word_and => exact decode_of_encode_eq rfl (encRRN_eq_opWord 0x8#4 x y 0x2#4)
  case word_xor => exact decode_of_encode_eq rfl (encRRN_eq_opWord 0x8#4 x y 0x3#4)

/-! ## The flag writers -/

/-- Settles O11: the sum and its carry, written in the order of R100. -/
theorem addRegisterSumAndCarry : Obligations.AddRegisterSumAndCarry := by
  intro x y s
  refine ⟨?word, _, exec_addReg x y s, fun hx => ?sum, ?carry, frame_setRegFlag s x _ _⟩
  case word => exact decode_of_encode_eq rfl (encRRN_eq_opWord 0x8#4 x y 0x4#4)
  case sum => rw [State.reg_setRegFlag_result hx, BitVec.toNat_add]
  case carry => rw [State.reg_setRegFlag_vf, flagByte_carry]

/-- The difference `a - b` with its NOT borrow, for either order of the operands (R108, R110). -/
theorem subtracts_of_exec {a b : Byte} (h : exec i s = .next (s.setRegFlag x (a - b) (noBorrow a b))) :
    ∃ t, exec i s = .next t ∧
      (x ≠ Reg.vf → (t.reg x).toNat = (a.toNat + 256 - b.toNat) % 256) ∧
      t.reg Reg.vf = (if a.toNat ≥ b.toNat then 1 else 0) ∧
      ChangesOnly (fun p => p = .reg x ∨ p = .reg Reg.vf) s t := by
  refine ⟨_, h, fun hx => ?difference, ?no_borrow, frame_setRegFlag s x _ _⟩
  case difference => rw [State.reg_setRegFlag_result hx, toNat_sub_byte]
  case no_borrow => rw [State.reg_setRegFlag_vf, flagByte_noBorrow]

/-- Settles O12: one difference, with the operands in the one order and in the other. -/
theorem subtractionsAndNoBorrow : Obligations.SubtractionsAndNoBorrow := by
  intro x y s
  refine ⟨?word_sub, ?word_subn, subtracts_of_exec (exec_sub x y s), subtracts_of_exec (exec_subn x y s)⟩
  case word_sub => exact decode_of_encode_eq rfl (encRRN_eq_opWord 0x8#4 x y 0x5#4)
  case word_subn => exact decode_of_encode_eq rfl (encRRN_eq_opWord 0x8#4 x y 0x7#4)

/-- Settles O13: VY halved or doubled, and the bit that leaves it at either end. -/
theorem shiftsTakeTheSecondRegister : Obligations.ShiftsTakeTheSecondRegister := by
  intro x y s
  refine ⟨?word_shr, ?word_shl,
    ⟨_, exec_shr x y s, fun hx => ?half, ?low_bit, frame_setRegFlag s x _ _⟩,
    ⟨_, exec_shl x y s, fun hx => ?double, ?high_bit, frame_setRegFlag s x _ _⟩⟩
  case word_shr => exact decode_of_encode_eq rfl (encRRN_eq_opWord 0x8#4 x y 0x6#4)
  case word_shl => exact decode_of_encode_eq rfl (encRRN_eq_opWord 0x8#4 x y 0xE#4)
  case half => rw [State.reg_setRegFlag_result hx, BitVec.toNat_ushiftRight, Nat.shiftRight_one]
  case low_bit => rw [State.reg_setRegFlag_vf, toNat_flagByte_shiftOutRight]
  case double => rw [State.reg_setRegFlag_result hx, BitVec.toNat_shiftLeft, Nat.shiftLeft_eq, Nat.pow_one]
  case high_bit => rw [State.reg_setRegFlag_vf, toNat_flagByte_shiftOutLeft]

end Sys2Proof.Machine
end

section
/-! PROOF. Control flow (41_control_flow.md): jumps, skips, CALL and RET, and a RET on the stack that a CALL left. -/

namespace Sys2Proof.Machine

variable {s u : State} {i : Instr}

/-! ## Words of the family -/

theorem decode_ret : decode 0x00EE = .ret := decode_of_encode_eq (i := .ret) rfl rfl

theorem decode_addrWord_call (nnn : BitVec 12) : decode (addrWord 0x2 nnn) = .call nnn :=
  decode_of_encode_eq rfl (encA12_eq_addrWord 0x2#4 nnn)

/-! ## The answer of each meaning -/

theorem exec_jp (nnn : BitVec 12) (s : State) : exec (.jp nnn) s = .next (s.setPc (zext16 nnn)) := rfl
theorem exec_jpV0 (nnn : BitVec 12) (s : State) : exec (.jpV0 nnn) s = .next (s.setPc (jumpV0Target nnn s)) := rfl
theorem exec_seImm (x : Reg) (nn : Byte) (s : State) :
    exec (.seImm x nn) s = .next (s.skipIf (s.reg x == nn)) := rfl
theorem exec_sneImm (x : Reg) (nn : Byte) (s : State) :
    exec (.sneImm x nn) s = .next (s.skipIf (s.reg x != nn)) := rfl
theorem exec_seReg (x y : Reg) (s : State) : exec (.seReg x y) s = .next (s.skipIf (s.reg x == s.reg y)) := rfl
theorem exec_sneReg (x y : Reg) (s : State) : exec (.sneReg x y) s = .next (s.skipIf (s.reg x != s.reg y)) := rfl
theorem exec_call (nnn : BitVec 12) (s : State) : exec (.call nnn) s = execCall nnn s := rfl
theorem exec_ret (s : State) : exec .ret s = execRet s := rfl

/-- A CALL with the stack full names its own address (decision D11). -/
theorem execCall_full (nnn : BitVec 12) (h : s.sp.val = 16) :
    execCall nnn s = .fault (.raised (.stackOverflow (s.pc - 2))) := by
  rw [execCall, s.push_full _ h]
  rfl

/-- A RET with the stack empty names its own address. -/
theorem execRet_empty (h : s.sp.val = 0) : execRet s = .fault (.raised (.stackUnderflow (s.pc - 2))) := by
  rw [execRet, s.pop_empty h]
  rfl

/-- A RET on the stack that a push of `w` on `s` left answers the pushed word and the SP of `s`. -/
theorem execRet_of_pushed {w : Word} (hroom : s.sp.val < 16) (hsp : u.sp.val = s.sp.val + 1)
    (hstack : u.stack = s.stack.set s.sp.val w hroom) : execRet u = .next { u with sp := s.sp, pc := w } := by
  rw [execRet_some u (by omega)]
  simp [hsp, hstack]

/-! ## Frames of the stack -/

theorem frame_slot (s : State) (n : Nat) (w : Word) (h : n < 16) :
    ChangesOnly (fun p => ∃ k : Fin 16, k.val = n ∧ p = .slot k) s { s with stack := s.stack.set n w h } := by
  constructor
  case slot =>
    intro k hk
    have hne : n ≠ k.val := fun e => hk ⟨k, e.symm, rfl⟩
    exact Vector.getElem_set_ne h _ hne
  all_goals intros; rfl

theorem frame_sp (s : State) (n : Fin 17) : ChangesOnly (fun p => p = .sp) s { s with sp := n } := by
  constructor
  case sp => exact fun h => absurd rfl h
  all_goals intros; rfl

/-- What a RET writes. -/
theorem frame_sp_pc (s : State) (n : Fin 17) (w : Word) :
    ChangesOnly (fun p => p = .pc ∨ p = .sp) s { s with sp := n, pc := w } :=
  ((frame_sp s n).mono fun _ => .inr).trans ((frame_setPc { s with sp := n } w).mono fun _ => .inl)

/-- What a CALL writes. -/
theorem frame_call (s : State) (n : Fin 17) (w target : Word) (h : s.sp.val < 16) :
    ChangesOnly (fun p => p = .pc ∨ p = .sp ∨ ∃ k : Fin 16, k.val = s.sp.val ∧ p = .slot k) s
      { s with stack := s.stack.set s.sp.val w h, sp := n, pc := target } :=
  ((frame_slot s s.sp.val w h).mono fun _ hp => .inr (.inr hp)).trans
    ((frame_sp_pc _ n target).mono fun _ hp => hp.imp_right .inl)

/-! ## CALL and RET -/

/-- Settles O18: the RET finds the word that the CALL pushed, which is the call's address + 2. -/
theorem returnUndoesCall : Obligations.ReturnUndoesCall := by
  intro s t u w nnn hw hcall hstep huf hur hsp hstack
  have hexec : execCall nnn s.advance = .next t := by
    rw [← exec_call, ← hcall, ← step_of_fetch (step_next hstep).1 hw, hstep]
  obtain ⟨hroom, rfl⟩ := execCall_next hexec
  have hret : execRet u.advance = .next { u.advance with sp := s.sp, pc := s.pc + 2 } :=
    execRet_of_pushed (s := s.advance) hroom (congrArg Fin.val hsp) hstack
  refine ⟨{ u with sp := s.sp, pc := s.pc + 2 }, ?completes, rfl, rfl, frame_sp_pc u _ _⟩
  case completes => rw [step_of_fetch huf hur, decode_ret, exec_ret, hret]; rfl

/-- Settles O16: the push in the slot at SP, or the fault with no slot left. -/
theorem callPushesTheReturnAddress : Obligations.CallPushesTheReturnAddress := by
  intro nnn s
  refine ⟨decode_addrWord_call nnn,
    fun hroom => ⟨_, execCall_room nnn s hroom, rfl, toNat_zext16 nnn, fun k hk => ?slot, frame_call s _ _ _ hroom⟩,
    execCall_full nnn⟩
  case slot => simp [hk]

/-- Settles O17: the pop of the slot below SP, which stays as it is, or the fault with no slot to pop. -/
theorem returnPopsTheStack : Obligations.ReturnPopsTheStack := by
  intro s
  refine ⟨decode_ret,
    fun hsp => ⟨_, execRet_some s hsp, Nat.sub_add_cancel hsp, fun k hk => ?slot, frame_sp_pc s _ _⟩, execRet_empty⟩
  case slot => simp [← hk]

/-! ## Jumps -/

/-- An instruction that answers a write of PC changes nothing else. -/
theorem jumps_of_exec {w : Word} {n : Nat} (h : exec i s = .next (s.setPc w)) (hw : w.toNat = n) :
    ∃ t, exec i s = .next t ∧ t.pc.toNat = n ∧ ChangesOnly (fun p => p = .pc) s t :=
  ⟨_, h, hw, frame_setPc s w⟩

/-- Settles O15: NNN and NNN + V0 both fit PC, so neither target wraps. -/
theorem jumpsChangeOnlyThePc : Obligations.JumpsChangeOnlyThePc := by
  intro nnn s
  refine ⟨?word_jp, ?word_jpV0, jumps_of_exec (exec_jp nnn s) (toNat_zext16 nnn),
    jumps_of_exec (exec_jpV0 nnn s) (toNat_jumpV0Target nnn s)⟩
  case word_jp => exact decode_of_encode_eq rfl (encA12_eq_addrWord 0x1#4 nnn)
  case word_jpV0 => exact decode_of_encode_eq rfl (encA12_eq_addrWord 0xB#4 nnn)

/-! ## Skips -/

/-- An instruction that skips on a test of `p` adds 2 to PC when `p` holds and changes nothing else. -/
theorem skips_of_exec {c : Bool} {p : Prop} [Decidable p] (h : exec i s = .next (s.skipIf c)) (hc : c = true ↔ p) :
    ∃ t, exec i s = .next t ∧ t.pc = (if p then s.pc + 2 else s.pc) ∧ ChangesOnly (fun q => q = .pc) s t :=
  ⟨_, h, (s.skipIf_pc c).trans (if_congr hc rfl rfl), frame_skipIf s c⟩

/-- Settles O19: the two tests of VX against NN. -/
theorem skipsOnAnImmediate : Obligations.SkipsOnAnImmediate := by
  intro x nn s
  refine ⟨?word_seImm, ?word_sneImm, skips_of_exec (exec_seImm x nn s) beq_iff_eq,
    skips_of_exec (exec_sneImm x nn s) bne_iff_ne⟩
  case word_seImm => exact decode_of_encode_eq rfl (encRI8_eq_immWord 0x3#4 x nn)
  case word_sneImm => exact decode_of_encode_eq rfl (encRI8_eq_immWord 0x4#4 x nn)

/-- Settles O20: the two tests of VX against VY. -/
theorem skipsOnTwoRegisters : Obligations.SkipsOnTwoRegisters := by
  intro x y n s
  exact ⟨decode_opWord_seReg x y n, decode_opWord_sneReg x y n, skips_of_exec (exec_seReg x y s) beq_iff_eq,
    skips_of_exec (exec_sneReg x y s) bne_iff_ne⟩

end Sys2Proof.Machine
end

section
/-! PROOF. CLS and DRW (42_display.md R151 to R154): a drawn sprite on one cell, on the bitmap and drawn twice, and the
answers of both meanings. -/

namespace Sys2Proof.Machine

variable {s u : State}

/-! ## A sprite on the bitmap -/

namespace Display

variable {rows rows' : Nat → Byte} {x0 y0 n x y : Nat}

/-- Bit 7 - c of row r falls on the cell c columns and r rows from the origin. -/
theorem spriteBit_offset {r c : Nat} (hr : r < n) (hc : c < 8) :
    spriteBit rows x0 y0 n (x0 + c) (y0 + r) = (rows r).getLsbD (7 - c) := by
  simp [spriteBit, rowBit, hr, hc]

/-- A cell under a set sprite bit lies in the sprite's rows and columns. -/
theorem exists_offset_of_spriteBit (h : spriteBit rows x0 y0 n x y = true) :
    ∃ r c, r < n ∧ c < 8 ∧ x = x0 + c ∧ y = y0 + r := by
  simp only [spriteBit, rowBit, Bool.and_eq_true, decide_eq_true_eq] at h
  obtain ⟨⟨hy0, hyn⟩, ⟨hx0, hx8⟩, -⟩ := h
  exact ⟨y - y0, x - x0, by omega⟩

/-- Inside the display, a drawn sprite XORs bit 7 - c of row r on its cell. -/
theorem cell_drawRows_offset (d : Display) {r c : Nat} (hr : r < n) (hc : c < 8) (hx : x0 + c < 64) (hy : y0 + r < 32) :
    (drawRows rows x0 y0 n d).cell (x0 + c) (y0 + r) =
      (d.cell (x0 + c) (y0 + r) ^^ (rows r).getLsbD (7 - c)) := by
  rw [cell_drawRows, decide_eq_true ⟨hx, hy⟩, Bool.true_and, spriteBit_offset hr hc]

/-- A drawn sprite changes no cell but those of its rows and columns inside the display. -/
theorem exists_offset_of_cell_drawRows_ne {d : Display} (h : (drawRows rows x0 y0 n d).cell x y ≠ d.cell x y) :
    ∃ r c, r < n ∧ c < 8 ∧ x0 + c < 64 ∧ y0 + r < 32 ∧ x = x0 + c ∧ y = y0 + r := by
  have hbit : (decide (x < 64 ∧ y < 32) && spriteBit rows x0 y0 n x y) = true := by
    by_contra hnot
    rw [cell_drawRows, Bool.eq_false_of_not_eq_true hnot, Bool.xor_false] at h
    exact h rfl
  obtain ⟨hin, hsprite⟩ := Bool.and_eq_true_iff.1 hbit
  obtain ⟨hx, hy⟩ := of_decide_eq_true hin
  obtain ⟨r, c, hr, hc, rfl, rfl⟩ := exists_offset_of_spriteBit hsprite
  exact ⟨r, c, hr, hc, hx, hy, rfl, rfl⟩

/-- Only the first `n` rows are drawn. -/
theorem drawRows_congr (h : ∀ r, r < n → rows r = rows' r) (d : Display) :
    drawRows rows x0 y0 n d = drawRows rows' x0 y0 n d := by
  induction n with
  | zero => rfl
  | succ r ih => rw [drawRows, drawRows, h r r.lt_succ_self, ih fun k hk => h k (Nat.lt_succ_of_lt hk)]

/-- XOR is its own inverse on every cell, and a clipped bit is dropped both times (R154). -/
theorem drawRows_drawRows (d : Display) : drawRows rows x0 y0 n (drawRows rows x0 y0 n d) = d := by
  apply ext_cells
  intro x y _ _
  rw [cell_drawRows, cell_drawRows, Bool.xor_assoc, Bool.xor_self, Bool.xor_false]

end Display

/-! ## Writes of the bitmap -/

/-- A bitmap that differs in cells of `may` alone is all that its write changes. -/
theorem frame_setDisplay {may : Part → Prop} {d : Display}
    (h : ∀ x y, ¬ may (.cell x y) → d.cell x y = s.display.cell x y) : ChangesOnly may s (s.setDisplay d) := by
  constructor
  case cell => exact h
  all_goals intros; rfl

theorem frame_drawnDisplay (x y : Reg) (n : Fin 16) (s : State) :
    ChangesOnly (fun p => ∃ r c, r < n.val ∧ c < 8 ∧ spriteX x s + c < 64 ∧ spriteY y s + r < 32 ∧
      p = .cell (spriteX x s + c) (spriteY y s + r)) s (s.setDisplay (drawnDisplay x y n s)) := by
  refine frame_setDisplay fun a b hout => ?_
  by_contra hne
  obtain ⟨r, c, hr, hc, hx, hy, rfl, rfl⟩ := Display.exists_offset_of_cell_drawRows_ne hne
  exact hout ⟨r, c, hr, hc, hx, hy, rfl⟩

/-! ## 00E0 -/

theorem decode_cls : decode 0x00E0 = .cls := decode_of_encode_eq (i := .cls) rfl rfl

theorem exec_cls (s : State) : exec .cls s = .next (s.setDisplay Display.clear) := rfl

/-- Settles O21: the cells that may change are all that the bitmap has. -/
theorem clearDarkensEveryCell : Obligations.ClearDarkensEveryCell := by
  intro s
  refine ⟨decode_cls, _, exec_cls s, fun x y _ _ => Display.cell_clear x y, frame_setDisplay fun x y hout => ?outside⟩
  case outside =>
    have hxy : ¬ (x < 64 ∧ y < 32) := fun ⟨hx, hy⟩ => hout ⟨x, y, hx, hy, rfl⟩
    rw [Display.cell_outside _ hxy, Display.cell_outside _ hxy]

/-! ## DXYN -/

theorem decode_opWord_drw (x y : Reg) (n : Fin 16) : decode (opWord 0xD x y n) = .drw x y n :=
  decode_of_encode_eq rfl (encRRN_eq_opWord 0xD#4 x y (BitVec.ofFin n))

theorem exec_drw (x y : Reg) (n : Fin 16) (s : State) :
    exec (.drw x y n) s = guardBlock n.val s (.next (s.setDisplay (drawnDisplay x y n s))) := rfl

/-- A DRW that completes had its rows in memory and leaves the drawn bitmap alone changed. -/
theorem exec_drw_next {x y : Reg} {n : Fin 16} {t : State} (h : exec (.drw x y n) s = .next t) :
    s.BlockInRange n.val ∧ t = s.setDisplay (drawnDisplay x y n s) := by
  rw [exec_drw] at h
  exact ⟨(guardBlock_next h).1, guardBlock_next_eq h⟩

/-- Settles O22: in range the sprite is drawn and frames its own cells; out of range the check answers first. -/
theorem drawXorsTheClippedSprite : Obligations.DrawXorsTheClippedSprite := by
  rintro x y n s _ _ rfl rfl
  refine ⟨decode_opWord_drw x y n, fun hin => ⟨_, ?completes, fun r c => ?cells, frame_drawnDisplay x y n s⟩,
    fun hpos hout => ?faults⟩
  case completes =>
    rw [exec_drw, guardBlock_in _ ((blockInRange_iff n.val s).2 hin)]
  case cells => exact Display.cell_drawRows_offset s.display
  case faults =>
    have hr : ¬ s.BlockInRange n.val := by rw [blockInRange_iff]; omega
    rw [exec_drw, guardBlock_out _ hr]
    rfl

/-- Drawing on the drawn bitmap what was drawn restores it. -/
theorem drawnDisplay_of_drawn {x y x' y' : Reg} {n : Fin 16} (hd : u.display = drawnDisplay x y n s)
    (hx : spriteX x' u = spriteX x s) (hy : spriteY y' u = spriteY y s)
    (hrows : ∀ r, r < n.val → spriteRow u r = spriteRow s r) : drawnDisplay x' y' n u = s.display := by
  rw [drawnDisplay, hx, hy, Display.drawRows_congr hrows, hd, drawnDisplay, Display.drawRows_drawRows]

/-- Settles O23: the second draw passes the same range check and draws the same rows at the same origin. -/
theorem drawingTwiceRestoresTheBitmap : Obligations.DrawingTwiceRestoresTheBitmap := by
  intro x y x' y' n s t u hexec hd hi hx hy hbytes
  obtain ⟨hin, rfl⟩ := exec_drw_next hexec
  have hin' : u.BlockInRange n.val := by rwa [State.BlockInRange, hi]
  have hrows : ∀ r, r < n.val → spriteRow u r = spriteRow s r := by
    intro r hr
    rw [spriteRow, hi, hbytes r hr, spriteRow]
  refine ⟨u.setDisplay (drawnDisplay x' y' n u), ?completes, drawnDisplay_of_drawn hd hx hy hrows⟩
  case completes => rw [exec_drw, guardBlock_in _ hin']

/-! ## The collision unit (R153) -/

theorem drawSprite_false (x y : Reg) (n : Fin 16) (s : State) :
    drawSprite false x y n s = s.setDisplay (drawnDisplay x y n s) := rfl

/-- The switch adds one write of VF after the draw (R153). -/
theorem drawSprite_true (x y : Reg) (n : Fin 16) (s : State) :
    drawSprite true x y n s = (drawSprite false x y n s).setReg Reg.vf (flagByte (spriteCollides x y n s)) := rfl

theorem spriteCollides_iff (x y : Reg) (n : Fin 16) (s : State) : spriteCollides x y n s = true ↔
    ∃ r c, r < n.val ∧ c < 8 ∧ s.display.cell (spriteX x s + c) (spriteY y s + r) = true ∧
      (spriteRow s r).getLsbD (7 - c) = true := by
  rw [spriteCollides, Display.collides_iff]
  simp only [exists_and_left]

theorem reg_vf_drawSprite_true (x y : Reg) (n : Fin 16) (s : State) :
    (drawSprite true x y n s).reg Reg.vf = flagByte (spriteCollides x y n s) := by
  rw [drawSprite_true, State.reg_setReg_same]

/-- Settles O24: with the switch on, the draw is the one with it off followed by a write of the collision signal to VF. -/
theorem collisionSwitchWritesVf : Obligations.CollisionSwitchWritesVf := by
  rintro x y n s _ _ rfl rfl
  refine ⟨?bitmap, fun hhit => ?hit, fun hmiss => ?miss, ?frame, ?off, rfl⟩
  case bitmap => rw [drawSprite_true, State.setReg_display]
  case hit =>
    have h : spriteCollides x y n s = true := (spriteCollides_iff x y n s).2 hhit
    rw [reg_vf_drawSprite_true, h]
    rfl
  case miss =>
    have h : spriteCollides x y n s = false := Bool.eq_false_of_not_eq_true (mt (spriteCollides_iff x y n s).1 hmiss)
    rw [reg_vf_drawSprite_true, h]
    rfl
  case frame => rw [drawSprite_true]; exact frame_setReg _ _ _
  case off => rw [drawSprite_false, State.setDisplay_reg]

end Sys2Proof.Machine
end

section
/-! PROOF. The memory block instructions (43_index_timer_input.md R174 to R176): the range check that all three make, the
bytes that FX33 and FX55 leave from I on, the registers that FX65 loads, and an FX65 on what an FX55 stored. -/

namespace Sys2Proof.Machine

variable {s t : State} {i : Instr} {x k : Reg} {n : Nat}

/-! ## The answer of each meaning -/

theorem exec_ldBVx (x : Reg) (s : State) :
    exec (.ldBVx x) s = guardBlock 3 s (.next (s.storeBytes s.i.toNat (bcdDigits (s.reg x)))) := rfl
theorem exec_ldMemVx (x : Reg) (s : State) :
    exec (.ldMemVx x) s = guardBlock (x.val + 1) s (.next (s.storeBytes s.i.toNat (regsUpTo x s))) := rfl
theorem exec_ldVxMem (x : Reg) (s : State) :
    exec (.ldVxMem x) s = guardBlock (x.val + 1) s (.next (s.loadRegs x)) := rfl

/-! ## The range check of an instruction that reaches I + n (20_memory.md R55) -/

/-- A nonempty block is in range when its last byte is. -/
theorem blockInRange_succ : s.BlockInRange (n + 1) ↔ s.i.toNat + n < 4096 :=
  (blockInRange_iff (n + 1) s).trans (or_iff_right n.succ_ne_zero)

theorem completes_of_guard (h : exec i s = guardBlock (n + 1) s (.next t)) (hin : s.i.toNat + n < 4096) :
    exec i s = .next t :=
  h.trans (guardBlock_in _ (blockInRange_succ.2 hin))

/-- Out of range the fault names the instruction and the lowest address outside memory (decision D9). -/
theorem faults_of_guard {go : Step} (h : exec i s = guardBlock (n + 1) s go) (hout : 4096 ≤ s.i.toNat + n) :
    exec i s = .fault (.raised (.addressOutOfRange (s.pc - 2) (max s.i.toNat 4096))) :=
  h.trans (guardBlock_out _ (mt blockInRange_succ.1 hout.not_gt))

/-! ## FX33 -/

/-- Each digit of a byte fits its own byte. -/
theorem map_toNat_bcdDigits (b : Byte) :
    (bcdDigits b).map BitVec.toNat = [b.toNat / 100, b.toNat / 10 % 10, b.toNat % 10] := by
  have hb := b.isLt
  simp (disch := omega) only [bcdDigits, List.map_cons, List.map_nil, BitVec.toNat_ofNat, Nat.mod_eq_of_lt]

/-- A stored byte read back as a number. -/
theorem toNat_byte_storeBytes {a j : Nat} {bs : List Byte} (h : (bs.map BitVec.toNat)[j]? = some n) :
    ((s.storeBytes a bs).byte (a + j)).toNat = n := by
  obtain ⟨hj, hn⟩ := List.getElem?_eq_some_iff.1 h
  rw [s.byte_storeBytes_inside bs a j (by simpa using hj), ← hn, List.getElem_map]

/-- The digits at I, I + 1 and I + 2, as numbers. -/
theorem toNat_byte_storeDigits {j : Nat} {b : Byte}
    (h : [b.toNat / 100, b.toNat / 10 % 10, b.toNat % 10][j]? = some n) :
    ((s.storeBytes s.i.toNat (bcdDigits b)).byte (s.i.toNat + j)).toNat = n :=
  toNat_byte_storeBytes (by rw [map_toNat_bcdDigits, h])

theorem frame_storeDigits (s : State) (a : Nat) (b : Byte) :
    ChangesOnly (fun p => p = .byte a ∨ p = .byte (a + 1) ∨ p = .byte (a + 2)) s (s.storeBytes a (bcdDigits b)) := by
  refine (frame_storeBytes s a (bcdDigits b)).mono ?_
  rintro _ ⟨j, hj, rfl⟩
  match j, hj with
  | 0, _ => exact .inl rfl
  | 1, _ => exact .inr (.inl rfl)
  | 2, _ => exact .inr (.inr rfl)

/-- Settles O27: the three digits stored from I on, or the range check's fault. -/
theorem bcdStoresThreeDigits : Obligations.BcdStoresThreeDigits := by
  intro x s
  refine ⟨?word, fun hin => ⟨_, completes_of_guard (exec_ldBVx x s) hin, ?hundreds, ?tens, ?ones,
    frame_storeDigits s _ _⟩, faults_of_guard (exec_ldBVx x s)⟩
  case word => exact decode_of_encode_eq rfl (encRI8_eq_immWord 0xF#4 x 0x33#8)
  case hundreds => exact toNat_byte_storeDigits (j := 0) rfl
  case tens => exact toNat_byte_storeDigits (j := 1) rfl
  case ones => exact toNat_byte_storeDigits (j := 2) rfl

/-! ## FX55 and FX65 -/

/-- A store of V0 to VX changes the byte at I + k for k up to X alone. -/
theorem frame_storeRegs (x : Reg) (s : State) :
    ChangesOnly (fun p => ∃ k : Reg, k ≤ x ∧ p = .byte (s.i.toNat + k.val)) s
      (s.storeBytes s.i.toNat (regsUpTo x s)) := by
  refine (frame_storeBytes s _ _).mono ?_
  rintro _ ⟨j, hj, rfl⟩
  rw [length_regsUpTo] at hj
  exact ⟨⟨j, by omega⟩, Nat.le_of_lt_succ hj, rfl⟩

/-- Settles O28: V0 to VX stored from I on, or the range check's fault. -/
theorem storeRegistersFromIndex : Obligations.StoreRegistersFromIndex := by
  intro x s
  refine ⟨?word, fun hin => ⟨_, completes_of_guard (exec_ldMemVx x s) hin, fun k => byte_storeRegs x k s,
    frame_storeRegs x s⟩, faults_of_guard (exec_ldMemVx x s)⟩
  case word => exact decode_of_encode_eq rfl (encRI8_eq_immWord 0xF#4 x 0x55#8)

theorem State.reg_loadRegs_le (hk : k ≤ x) : (s.loadRegs x).reg k = s.byte (s.i.toNat + k.val) :=
  (s.reg_loadRegs x k).trans (if_pos hk)

theorem State.reg_loadRegs_not_le (hk : ¬ k ≤ x) : (s.loadRegs x).reg k = s.reg k :=
  (s.reg_loadRegs x k).trans (if_neg hk)

/-- A load of V0 to VX changes those registers alone. -/
theorem frame_loadRegs (x : Reg) (s : State) :
    ChangesOnly (fun p => ∃ k : Reg, k ≤ x ∧ p = .reg k) s (s.loadRegs x) := by
  constructor
  case reg => exact fun k hout => State.reg_loadRegs_not_le fun hk => hout ⟨k, hk, rfl⟩
  all_goals intros; simp

/-- Settles O29: V0 to VX loaded from I on, or the range check's fault. -/
theorem loadRegistersFromIndex : Obligations.LoadRegistersFromIndex := by
  intro x s
  refine ⟨?word, fun hin => ⟨_, completes_of_guard (exec_ldVxMem x s) hin, fun k => State.reg_loadRegs_le,
    frame_loadRegs x s⟩, faults_of_guard (exec_ldVxMem x s)⟩
  case word => exact decode_of_encode_eq rfl (encRI8_eq_immWord 0xF#4 x 0x65#8)

/-- Settles O30: the load passes the range check that the store passed, and reads the bytes that the store left. -/
theorem storeThenLoadBringsRegistersBack : Obligations.StoreThenLoadBringsRegistersBack := by
  intro x s t u hstore hi hbytes
  have hin : u.i.toNat + x.val < 4096 := by
    rw [hi]
    exact (exec_ldMemVx_next hstore).1
  refine ⟨_, completes_of_guard (exec_ldVxMem x u) hin, fun k => ⟨fun hk => ?stored, fun hk => ?beyond⟩⟩
  case stored => rw [State.reg_loadRegs_le hk, hbytes, hi, byte_of_exec_ldMemVx hstore hk]
  case beyond => exact State.reg_loadRegs_not_le hk.not_ge

end Sys2Proof.Machine
end

section
/-! PROOF. The index register, the timers and the key latch (43_index_timer_input.md R171 to R173, R177 to R183): sums into
I, timer transfers, skips on the latched key and the wait for one. -/

namespace Sys2Proof.Machine

variable {s : State} {i : Instr}

/-! ## The answer of each meaning -/

theorem exec_ldI (nnn : BitVec 12) (s : State) : exec (.ldI nnn) s = .next (s.setI (zext16 nnn)) := rfl
theorem exec_addIVx (x : Reg) (s : State) : exec (.addIVx x) s = .next (s.setI (indexPlus x s)) := rfl
theorem exec_ldFVx (x : Reg) (s : State) : exec (.ldFVx x) s = .next (s.setI (glyphAddress x s)) := rfl
theorem exec_ldVxDt (x : Reg) (s : State) : exec (.ldVxDt x) s = .next (s.setReg x s.dt) := rfl
theorem exec_ldDtVx (x : Reg) (s : State) : exec (.ldDtVx x) s = .next (s.setDt (s.reg x)) := rfl
theorem exec_ldStVx (x : Reg) (s : State) : exec (.ldStVx x) s = .next (s.setSt (s.reg x)) := rfl
theorem exec_skp (x : Reg) (s : State) : exec (.skp x) s = .next (s.skipIf (keyIs x s)) := rfl
theorem exec_sknp (x : Reg) (s : State) : exec (.sknp x) s = .next (s.skipIf !keyIs x s) := rfl
theorem exec_ldVxK (x : Reg) (s : State) : exec (.ldVxK x) s = execLdVxK x s := rfl

/-! ## The index register -/

/-- FX1E wraps at 16 bits (decision D12). -/
theorem toNat_indexPlus (x : Reg) (s : State) :
    (indexPlus x s).toNat = (s.i.toNat + (s.reg x).toNat) % 65536 := by
  rw [indexPlus, BitVec.toNat_add, BitVec.toNat_setWidth_of_le (by decide)]

/-- The last glyph ends at FONT_BASE + 80, which is at most 0x200 (00_scope.md R9), so a glyph's address does not wrap. -/
theorem toNat_glyphAddress (x : Reg) (s : State) :
    (glyphAddress x s).toNat = Config.fontBase.val + 5 * ((s.reg x).toNat % 16) := by
  have hbase := Config.fontBase.isLt
  have hdigit : (s.reg x &&& 0x0F).toNat = (s.reg x).toNat % 16 := by
    rw [BitVec.toNat_and]
    exact Nat.and_two_pow_sub_one_eq_mod _ 4
  rw [glyphAddress, hdigit, BitVec.toNat_ofNat, fontBase]
  exact Nat.mod_eq_of_lt (by omega)

/-- An instruction that answers a write of I changes nothing else. -/
theorem indexes_of_exec {w : Word} {n : Nat} (h : exec i s = .next (s.setI w)) (hw : w.toNat = n) :
    ∃ t, exec i s = .next t ∧ t.i.toNat = n ∧ ChangesOnly (fun p => p = .index) s t :=
  ⟨_, h, hw, frame_setI s w⟩

/-- Settles O25: NNN fits I as it is. -/
theorem loadIndexImmediate : Obligations.LoadIndexImmediate := by
  intro nnn s
  exact ⟨decode_of_encode_eq rfl (encA12_eq_addrWord 0xA#4 nnn), indexes_of_exec (exec_ldI nnn s) (toNat_zext16 nnn)⟩

/-- Settles O26: the wrapping sum and the glyph's address, each written to I alone. -/
theorem indexAddAndGlyphAddress : Obligations.IndexAddAndGlyphAddress := by
  intro x s
  refine ⟨?word_add, ?word_glyph, indexes_of_exec (exec_addIVx x s) (toNat_indexPlus x s),
    indexes_of_exec (exec_ldFVx x s) (toNat_glyphAddress x s)⟩
  case word_add => exact decode_of_encode_eq rfl (encRI8_eq_immWord 0xF#4 x 0x1E#8)
  case word_glyph => exact decode_of_encode_eq rfl (encRI8_eq_immWord 0xF#4 x 0x29#8)

/-! ## The timers -/

/-- Settles O31: one transfer into VX and two out of it. -/
theorem timerTransfers : Obligations.TimerTransfers := by
  intro x s
  refine ⟨⟨?word_read, ?word_delay, ?word_sound⟩, writes_of_exec (exec_ldVxDt x s),
    ⟨_, exec_ldDtVx x s, s.setDt_dt _, frame_setDt s _⟩, ⟨_, exec_ldStVx x s, s.setSt_st _, frame_setSt s _⟩⟩
  case word_read => exact decode_of_encode_eq rfl (encRI8_eq_immWord 0xF#4 x 0x07#8)
  case word_delay => exact decode_of_encode_eq rfl (encRI8_eq_immWord 0xF#4 x 0x15#8)
  case word_sound => exact decode_of_encode_eq rfl (encRI8_eq_immWord 0xF#4 x 0x18#8)

/-! ## The keys -/

/-- Settles O32: the two skips on the one test of the latch, `keyIs_iff`. -/
theorem skipsOnTheLatchedKey : Obligations.SkipsOnTheLatchedKey := by
  intro x s
  refine ⟨?word_skp, ?word_sknp, skips_of_exec (exec_skp x s) (keyIs_iff x s), ?sknp⟩
  case word_skp => exact decode_of_encode_eq rfl (encRI8_eq_immWord 0xE#4 x 0x9E#8)
  case word_sknp => exact decode_of_encode_eq rfl (encRI8_eq_immWord 0xE#4 x 0xA1#8)
  case sknp =>
    have hnot : (!keyIs x s) = true ↔ ¬ s.key.map Fin.val = some (s.reg x).toNat := by
      rw [Bool.not_eq_true', ← Bool.not_eq_true, keyIs_iff]
    obtain ⟨t, ht, hpc, hframe⟩ := skips_of_exec (exec_sknp x s) hnot
    exact ⟨t, ht, hpc.trans (ite_not _ _ _), hframe⟩

theorem decode_immWord_ldVxK (x : Reg) : decode (immWord 0xF x 0x0A) = .ldVxK x :=
  decode_of_encode_eq rfl (encRI8_eq_immWord 0xF#4 x 0x0A#8)

/-- With no key latched FX0A goes back to its own address (R182). -/
theorem exec_ldVxK_none (x : Reg) (h : s.key = none) : exec (.ldVxK x) s = .next (s.setPc (s.pc - 2)) := by
  rw [exec_ldVxK, execLdVxK, h]

/-- With a key latched FX0A loads its index (R182). -/
theorem exec_ldVxK_some (x : Reg) {k : Fin 16} (h : s.key = some k) :
    exec (.ldVxK x) s = .next (s.setReg x (BitVec.ofNat 8 k.val)) := by
  rw [exec_ldVxK, execLdVxK, h]

/-- A waiting step undoes the advance of its own fetch (R183). -/
theorem setPc_advance_sub_two (s : State) : s.advance.setPc (s.advance.pc - 2) = s := by
  rw [State.advance_pc, BitVec.add_sub_cancel]
  rfl

/-- Settles O33: the two answers of FX0A, and the step that waits. -/
theorem keyWaitLeavesTheStateOrLoadsTheKey : Obligations.KeyWaitLeavesTheStateOrLoadsTheKey := by
  refine ⟨decode_immWord_ldVxK, fun x s hkey => ?waits, fun x s k hkey => ?loads, fun x s hf hkey hw => ?step⟩
  case waits => exact ⟨_, exec_ldVxK_none x hkey, s.setPc_pc _, frame_setPc s _⟩
  case loads =>
    obtain ⟨t, ht, hreg, hframe⟩ := writes_of_exec (exec_ldVxK_some x hkey)
    refine ⟨t, ht, ?_, hframe⟩
    rw [hreg, BitVec.toNat_ofNat, Nat.mod_eq_of_lt (by omega)]
  case step =>
    have hwait : exec (.ldVxK x) s.advance = .next (s.advance.setPc (s.advance.pc - 2)) := exec_ldVxK_none x hkey
    rw [step_of_fetch hf hw, decode_immWord_ldVxK, hwait, setPc_advance_sub_two]

end Sys2Proof.Machine
end

section
/-! PROOF. Exceptions and the host's operations (60_exceptions.md): each way an instruction can stop with its condition
(R202), what a fault disables (R201, R204), and the effects of tick and set_key (R211, R213). -/

namespace Sys2Proof.Machine

variable {σ : Session}

/-! ## The ways an instruction stops -/

theorem execRet_or (s : State) :
    (∃ t, execRet s = .next t) ∨
      s.sp.val = 0 ∧ execRet s = .fault (.raised (.stackUnderflow (s.pc - 2))) := by
  obtain h | h := Nat.eq_zero_or_pos s.sp.val
  · exact .inr ⟨h, execRet_empty h⟩
  · exact .inl ⟨_, execRet_some s h⟩

theorem execCall_or (nnn : BitVec 12) (s : State) :
    (∃ t, execCall nnn s = .next t) ∨
      s.sp.val = 16 ∧ execCall nnn s = .fault (.raised (.stackOverflow (s.pc - 2))) := by
  obtain h | h := Nat.lt_or_eq_of_le (Nat.le_of_lt_succ s.sp.isLt)
  · exact .inl ⟨_, execCall_room nnn s h⟩
  · exact .inr ⟨h, execCall_full nnn h⟩

/-- FX0A with no key latched waits by completing, it does not stop (R182). -/
theorem exec_ldVxK_completes (x : Reg) (s : State) : ∃ t, exec (.ldVxK x) s = .next t := by
  cases h : s.key with
  | none => exact ⟨_, exec_ldVxK_none x h⟩
  | some k => exact ⟨_, exec_ldVxK_some x h⟩

/-- Settles O36: RET and CALL check the stack, the four instructions that reach data make the one range check of their
`dataBytes`, and every other instruction answers a next state. -/
theorem nothingStopsButTheNamedChecks : Obligations.NothingStopsButTheNamedChecks := by
  intro i s
  cases i with
  | ret => exact (execRet_or s).imp_right fun ⟨hsp, hstop⟩ => .inl ⟨rfl, hsp, hstop⟩
  | call nnn => exact (execCall_or nnn s).imp_right fun ⟨hsp, hstop⟩ => .inr (.inl ⟨⟨nnn, rfl⟩, hsp, hstop⟩)
  | drw | ldBVx | ldMemVx | ldVxMem =>
    exact (guardBlock_or _ s _).imp (fun hgo => ⟨_, hgo⟩) fun hstop => .inr (.inr hstop)
  | ldVxK x => exact .inl (exec_ldVxK_completes x s)
  | _ => exact .inl ⟨_, rfl⟩

/-! ## A latched fault -/

/-- While FAULT holds a record, `reset` is the only operation enabled (decision D24). -/
theorem hostOp_faulted {op : HostOp} {r : FaultRecord} (h : σ.st.fault = some r) (hop : op ≠ .reset) :
    hostOp op σ = none := by
  have hdisabled : ¬ σ.st.enabled := by simp [h]
  cases op with
  | reset => exact absurd rfl hop
  | loadProgram bytes => exact if_neg fun hload => hdisabled hload.1
  | setKey k => exact if_neg hdisabled
  | tick => exact if_neg hdisabled
  | step => exact hostStep_faulted h

/-- Settles O41: the record that a step raises names PC, and the latch it leaves disables all but `reset`. -/
theorem faultsArePreciseAndAbsorbing : Obligations.FaultsArePreciseAndAbsorbing := by
  refine ⟨fun σ r hr => ⟨(step_raised hr).pc_eq, hostStep_raised hr⟩, fun σ r h => ⟨?step, ?tick, ?setKey, ?load, ?reset⟩⟩
  case step => exact hostOp_faulted h nofun
  case tick => exact hostOp_faulted h nofun
  case setKey => exact fun k => hostOp_faulted h nofun
  case load => exact fun bytes => hostOp_faulted h nofun
  case reset => exact ⟨_, rfl, resetBlock_fault σ.st⟩

/-! ## Ticks -/

/-- One tick of a timer is the truncated predecessor of its value (R211). -/
theorem toNat_countDown (b : Byte) : (if b = 0 then 0 else b - 1).toNat = b.toNat - 1 := by
  split_ifs with h
  · rw [h]; rfl
  · have hpos : 1 ≤ b.toNat := Nat.pos_of_ne_zero fun hz => h (BitVec.eq_of_toNat_eq hz)
    exact BitVec.toNat_sub_of_le hpos

theorem frame_tickTimers (s : State) : ChangesOnly (fun p => p = .delay ∨ p = .sound) s (tickTimers s) := by
  constructor
  case delay => exact fun h => absurd (.inl rfl) h
  case sound => exact fun h => absurd (.inr rfl) h
  all_goals intros; rfl

theorem runOps_tick_cons (ops : List HostOp) (h : σ.st.fault = none) :
    runOps (.tick :: ops) σ = runOps ops { σ with st := tickTimers σ.st } := by
  rw [runOps, hostOp_tick_enabled h]

/-- Settles O43, by induction on the number of ticks: the first tick leaves the block enabled for the others. -/
theorem ticksCountBothTimersDown : Obligations.TicksCountBothTimersDown := by
  intro n
  induction n with
  | zero => exact fun σ _ => ⟨σ, rfl, rfl, rfl, rfl, rfl, .refl _ _⟩
  | succ n ih =>
    intro σ h
    obtain ⟨σ', hrun, hstepped, hloaded, hdt, hst, hframe⟩ := ih { σ with st := tickTimers σ.st } h
    refine ⟨σ', ?run, hstepped, hloaded, ?delay, ?sound, (frame_tickTimers σ.st).trans hframe⟩
    case run => rw [List.replicate_succ, runOps_tick_cons _ h, hrun]
    case delay => rw [hdt, tickTimers_dt, toNat_countDown, Nat.sub_sub, Nat.add_comm]
    case sound => rw [hst, tickTimers_st, toNat_countDown, Nat.sub_sub, Nat.add_comm]

/-! ## Keys -/

/-- Settles O44: an enabled set_key is one write of the key latch. -/
theorem setKeyWritesOnlyTheLatch : Obligations.SetKeyWritesOnlyTheLatch := by
  intro k σ h
  exact ⟨_, hostOp_setKey_enabled k h, rfl, rfl, σ.st.setKey_key k, frame_setKey σ.st k⟩

end Sys2Proof.Machine
end

section
/-! PROOF. Reset, loading a ROM, runs over zero bytes, the end of a run and the reference iteration
(70_reset_and_hazards.md R230, R233, R235 to R238). -/

namespace Sys2Proof.Machine

variable {s t : State} {σ : Session}

/-! ## Reset (R230) -/

/-- After reset the font is at FONT_BASE (10_state.md R37). -/
theorem resetBlock_byte_font (s : State) (j : Fin 80) :
    (resetBlock s).byte (Config.fontBase.val + j.val) = Config.fontGlyphs j :=
  (initialByte_font j.isLt).trans (dif_pos j.isLt)

theorem resetBlock_slot (s : State) (k : Fin 16) : (resetBlock s).stack[k.val] = 0 := Vector.getElem_replicate _

theorem resetBlock_cell (s : State) (x y : Nat) : (resetBlock s).display.cell x y = false := Display.cell_clear x y

/-- Settles O42: reset is enabled in every block, and each component it leaves is read off the reset state. -/
theorem resetLeavesTheResetState : Obligations.ResetLeavesTheResetState := by
  intro σ
  exact ⟨_, rfl, rfl, rfl, resetBlock_reg σ.st, rfl, resetBlock_pc σ.st, resetBlock_slot σ.st, rfl, rfl, rfl,
    resetBlock_cell σ.st, rfl, resetBlock_fault σ.st, resetBlock_byte_font σ.st,
    fun _ => initialByte_outside_font, resetBlock_draws σ.st⟩

/-! ## Loading a ROM (R233) -/

section Load

variable {bytes : List Byte}

theorem hostLoad_disabled (h : ¬ σ.loadEnabled) : hostLoad bytes σ = none := if_neg h

theorem hostLoad_tooLarge (h : σ.loadEnabled) (hlen : 3584 < bytes.length) :
    hostLoad bytes σ = some (σ, .romTooLarge bytes.length) :=
  (if_pos h).trans (if_pos hlen)

theorem hostLoad_fits (h : σ.loadEnabled) (hlen : bytes.length ≤ 3584) :
    hostLoad bytes σ = some ({ σ with st := loadRom bytes σ.st, loaded := true }, .ok) :=
  (if_pos h).trans (if_neg hlen.not_gt)

end Load

/-- Settles O45: one answer of `load_program` for each case, and the store of the bytes from 0x200 on. -/
theorem loadProgramCopiesTheRom : Obligations.LoadProgramCopiesTheRom := by
  intro bytes σ hf
  refine ⟨fun hhist => hostLoad_disabled ?disabled, fun hstep hload => hostLoad_tooLarge ⟨hf, hstep, hload⟩,
    fun hstep hload hlen => ⟨_, hostLoad_fits ⟨hf, hstep, hload⟩ hlen, hstep, rfl,
      σ.st.byte_storeBytes_inside bytes 0x200, frame_storeBytes σ.st 0x200 bytes⟩⟩
  case disabled =>
    rintro ⟨-, hstep, hload⟩
    simp [hstep, hload] at hhist

/-! ## Zero bytes (R235) -/

/-- Two zero bytes are the unknown word 0x0000, a no-op (30_encoding.md R80). -/
theorem step_zeroBytes (hf : s.fault = none) (hpc : s.pc.toNat + 1 < 4096) (hhi : s.byte s.pc.toNat = 0)
    (hlo : s.byte (s.pc.toNat + 1) = 0) : step s = .next s.advance := by
  have hw : fetch s = .ok 0 := by
    rw [fetch_ok s hpc, hhi, hlo]
    rfl
  have hu : decode 0 = .unknown 0 := by decide
  exact step_unknown hf hw hu

/-- By induction on the number of steps: each moves PC past two of the zero bytes. -/
theorem run_zeroBytes (k : Nat) (hf : s.fault = none) (htop : s.pc.toNat + 2 * k ≤ 4096)
    (hzero : ∀ a, s.pc.toNat ≤ a → a < s.pc.toNat + 2 * k → s.byte a = 0) :
    ∃ t, Host.Core.run Sys2Proof.core k s = .next t ∧ t.pc.toNat = s.pc.toNat + 2 * k ∧
      ChangesOnly (fun p => p = .pc) s t := by
  induction k generalizing s with
  | zero => exact ⟨s, rfl, rfl, .refl _ _⟩
  | succ k ih =>
    have hstep : step s = .next s.advance :=
      step_zeroBytes hf (by omega) (hzero _ (by omega) (by omega)) (hzero _ (by omega) (by omega))
    have hadv : s.advance.pc.toNat = s.pc.toNat + 2 := s.advance_toNat (by omega)
    obtain ⟨t, hrun, hpc, hframe⟩ :=
      ih (s := s.advance) hf (by omega) fun a hlo hhi => hzero a (by omega) (by omega)
    exact ⟨t, (run_succ k hstep).trans hrun, by omega, (frame_setPc s _).trans hframe⟩

/-- Settles O46: the run over zero bytes, and after the 1792 steps from reset the fetch at 0x1000. -/
theorem zeroBytesRunToTheTop : Obligations.ZeroBytesRunToTheTop := by
  refine ⟨fun k s => run_zeroBytes k, ?reset⟩
  case reset =>
    obtain ⟨t, hrun, hpc, hframe⟩ :=
      run_zeroBytes (s := State.reset) 1792 rfl (by decide) fun a ha _ => initialByte_program ha
    have htop : t.pc = 0x1000 := BitVec.eq_of_toNat_eq hpc
    have hfetch := fetch_first_byte_out t hpc.ge
    rw [htop] at hfetch
    exact ⟨t, hrun, htop, step_of_fetch_error (hframe.fault nofun) hfetch⟩

/-! ## The end of a run (R238) -/

theorem decode_addrWord_jp (nnn : BitVec 12) : decode (addrWord 1 nnn) = .jp nnn :=
  decode_of_encode_eq rfl (encA12_eq_addrWord 0x1#4 nnn)

/-- A jump to its own address undoes the advance of its fetch. -/
theorem step_atEndOfRun (hf : s.fault = none) (hend : AtEndOfRun s) : step s = .next s := by
  obtain ⟨nnn, hw, hpc⟩ := hend
  rw [step_of_fetch hf hw, decode_addrWord_jp, exec_jp, hpc]
  rfl

theorem run_of_step_self (h : step s = .next s) (k : Nat) : Host.Core.run Sys2Proof.core k s = .next s := by
  induction k with
  | zero => rfl
  | succ k ih => exact (run_succ k h).trans ih

/-- Settles O47: a state that one step leaves as it is, any number of steps leave as it is. -/
theorem selfJumpLeavesTheStateUnchanged : Obligations.SelfJumpLeavesTheStateUnchanged := by
  intro k s hf hend
  exact run_of_step_self (step_atEndOfRun hf hend) k

/-! ## The reference iteration (R236, R237) -/

/-- The state in which the step of an iteration with the event `ev` runs: the latch set, both timers ticked. -/
def beforeIterationStep (ev : Option (Fin 16)) (s : State) : State := tickTimers (s.setKey ev)

section Iteration

variable (ev : Option (Fin 16))

theorem fetch_beforeIterationStep (s : State) : fetch (beforeIterationStep ev s) = fetch s := fetch_congr rfl rfl

theorem toNat_dt_beforeIterationStep (s : State) : (beforeIterationStep ev s).dt.toNat = s.dt.toNat - 1 :=
  toNat_countDown s.dt

theorem frame_beforeIterationStep (s : State) :
    ChangesOnly (fun p => p = .key ∨ p = .delay ∨ p = .sound) s (beforeIterationStep ev s) :=
  ((frame_setKey s ev).mono fun _ => .inl).trans ((frame_tickTimers _).mono fun _ => .inr)

theorem runOps_setKey_cons (ops : List HostOp) (h : σ.st.fault = none) :
    runOps (.setKey ev :: ops) σ = runOps ops { σ with st := σ.st.setKey ev } := by
  rw [runOps, hostOp_setKey_enabled ev h]

theorem runOps_step_cons (ops : List HostOp) (h : step σ.st = .next t) :
    runOps (.step :: ops) σ = runOps ops { σ with st := t, stepped := true } := by
  rw [runOps, hostOp, hostStep_next h]

/-- One setKey, one tick and a step that completes, at the head of a sequence of operations. -/
theorem runOps_setKey_tick_step (ops : List HostOp) (hf : σ.st.fault = none)
    (hstep : step (beforeIterationStep ev σ.st) = .next t) :
    runOps (.setKey ev :: .tick :: .step :: ops) σ = runOps ops { σ with st := t, stepped := true } :=
  calc runOps (.setKey ev :: .tick :: .step :: ops) σ
    _ = runOps (.tick :: .step :: ops) { σ with st := σ.st.setKey ev } := runOps_setKey_cons ev _ hf
    _ = runOps (.step :: ops) { σ with st := beforeIterationStep ev σ.st } := runOps_tick_cons _ hf
    _ = runOps ops { σ with st := t, stepped := true } := runOps_step_cons _ hstep

/-- An iteration whose step completes, at the head of a sequence of operations: a key event overwrites the cleared latch. -/
theorem runOps_iterationOps_append (ops : List HostOp) (hf : σ.st.fault = none)
    (hstep : step (beforeIterationStep ev σ.st) = .next t) :
    runOps (iterationOps ev ++ ops) σ = runOps ops { σ with st := t, stepped := true } := by
  cases ev with
  | none => exact runOps_setKey_tick_step none ops hf hstep
  | some k => exact (runOps_setKey_cons none _ hf).trans (runOps_setKey_tick_step (some k) ops hf hstep)

/-- An iteration that executes the word at PC and completes. -/
theorem iteration_of_fetch {w : Word} (hf : σ.st.fault = none) (hw : fetch σ.st = .ok w)
    (hexec : exec (decode w) (beforeIterationStep ev σ.st).advance = .next t) :
    iteration ev σ = some { σ with st := t, stepped := true } := by
  have hfetch : fetch (beforeIterationStep ev σ.st) = .ok w := (fetch_beforeIterationStep ev σ.st).trans hw
  have hstep : step (beforeIterationStep ev σ.st) = .next t :=
    (step_of_fetch (s := beforeIterationStep ev σ.st) hf hfetch).trans hexec
  rw [iteration, ← List.append_nil (iterationOps ev), runOps_iterationOps_append ev [] hf hstep, runOps]

end Iteration

/-- A frame that keeps PC and every byte keeps what is fetched. -/
theorem ChangesOnly.fetch_eq {may : Part → Prop} (h : ChangesOnly may s t) (hpc : ¬ may .pc)
    (hbyte : ∀ a, ¬ may (.byte a)) : fetch t = fetch s := by
  unfold fetch
  rw [h.pc hpc, h.byte _ (hbyte _), h.byte _ (hbyte _)]

/-- Settles O49: the second iteration ticks once between the write of DT and its read. -/
theorem delayWrittenIsReadOneLessNextIteration : Obligations.DelayWrittenIsReadOneLessNextIteration := by
  intro x y e1 e2 σ hf hw hw'
  obtain ⟨⟨-, hdecode₁, -⟩, -, ⟨s₁, hexec₁, hdt₁, hframe₁⟩, -⟩ :=
    timerTransfers x (beforeIterationStep e1 σ.st).advance
  obtain ⟨⟨hdecode₂, -, -⟩, ⟨s₂, hexec₂, hreg₂, hframe₂⟩, -⟩ :=
    timerTransfers y (beforeIterationStep e2 s₁).advance
  rw [← hdecode₁] at hexec₁
  rw [← hdecode₂] at hexec₂
  have hf₁ : s₁.fault = none := (hframe₁.fault nofun).trans hf
  have hw₁ : fetch s₁ = .ok (immWord 0xF y 0x07) := by
    rw [hframe₁.fetch_eq nofun nofun, ← hw']
    exact fetch_congr rfl rfl
  refine ⟨_, _, iteration_of_fetch e1 hf hw hexec₁, hdt₁, hframe₁.key nofun,
    iteration_of_fetch e2 hf₁ hw₁ hexec₂, ?read, hframe₂.key nofun⟩
  case read =>
    calc (s₂.reg y).toNat
      _ = (beforeIterationStep e2 s₁).dt.toNat := congrArg BitVec.toNat hreg₂
      _ = s₁.dt.toNat - 1 := toNat_dt_beforeIterationStep e2 s₁
      _ = (σ.st.reg x).toNat - 1 := congrArg (·.toNat - 1) hdt₁

/-! ## Waiting for a key (R237, 43_index_timer_input.md R182) -/

/-- By induction on the number of iterations: the waiting step leaves the state in which it runs, with FX0A still at PC. -/
theorem runOps_waiting (x : Reg) (n : Nat) (hf : σ.st.fault = none) (hw : fetch σ.st = .ok (immWord 0xF x 0x0A)) :
    ∃ σ₁, runOps (List.replicate n (iterationOps none)).flatten σ = some σ₁ ∧
      σ₁.st.key = (if n = 0 then σ.st.key else none) ∧ σ₁.st.dt.toNat = σ.st.dt.toNat - n ∧
      ChangesOnly (fun p => p = .key ∨ p = .delay ∨ p = .sound) σ.st σ₁.st := by
  induction n generalizing σ with
  | zero => exact ⟨σ, rfl, rfl, rfl, .refl _ _⟩
  | succ n ih =>
    obtain ⟨-, -, -, hwait⟩ := keyWaitLeavesTheStateOrLoadsTheKey
    have hfetch := (fetch_beforeIterationStep none σ.st).trans hw
    have hstep : step (beforeIterationStep none σ.st) = .next (beforeIterationStep none σ.st) := hwait x _ hf rfl hfetch
    obtain ⟨σ₁, hrun, hkey, hdt, hframe⟩ :=
      ih (σ := { σ with st := beforeIterationStep none σ.st, stepped := true }) hf hfetch
    refine ⟨σ₁, ?run, hkey.trans (ite_self _), ?delay, (frame_beforeIterationStep none σ.st).trans hframe⟩
    case run => rw [List.replicate_succ, List.flatten_cons, runOps_iterationOps_append none _ hf hstep, hrun]
    case delay => rw [hdt, toNat_dt_beforeIterationStep, Nat.sub_sub, Nat.add_comm]

/-- Settles O50: n waiting iterations, then one over the same FX0A with the key latched. -/
theorem keyWaitEndsAtTheFirstKeyEvent : Obligations.KeyWaitEndsAtTheFirstKeyEvent := by
  intro x k n σ hf hw
  obtain ⟨σ₁, hrun, hkey, hdt, hframe⟩ := runOps_waiting x n hf hw
  have hpc : σ₁.st.pc = σ.st.pc := hframe.pc (by simp)
  have hf₁ : σ₁.st.fault = none := (hframe.fault (by simp)).trans hf
  have hw₁ : fetch σ₁.st = .ok (immWord 0xF x 0x0A) := (hframe.fetch_eq (by simp) (by simp)).trans hw
  obtain ⟨hdecode, -, hload, -⟩ := keyWaitLeavesTheStateOrLoadsTheKey
  obtain ⟨t, hexec, hreg, hframe'⟩ := hload x (beforeIterationStep (some k) σ₁.st).advance k rfl
  rw [← hdecode] at hexec
  refine ⟨σ₁, _, hrun, hpc, fun hn => ?idle, fun r => hframe.reg r (by simp), hdt,
    iteration_of_fetch (some k) hf₁ hw₁ hexec, hreg, ?pc⟩
  case idle => rw [hkey, if_neg hn.ne']
  case pc =>
    have hadv : t.pc = σ₁.st.pc + 2 := hframe'.pc nofun
    rw [hadv, hpc]

end Sys2Proof.Machine
end
